-- ==== Sys2Proof/Word.lean ====
section
/-! DEFINITION. Word types of the ovenctl codec block (spec 00_scope.md R7, R8): bytes, 16-bit protocol words,
32-bit native-float patterns and results, 64-bit command words, and the four bytes of a packed float. -/

namespace Sys2Proof

/-- A byte: 8 bits (R7, R8). -/
abbrev Byte := BitVec 8

/-- A protocol word (RegisterValue), the checksum register, or an `A` field: 16 bits (R7, R81). -/
abbrev Word16 := BitVec 16

/-- A native float pattern, the `RES` register, or a `D` field: 32 bits (R7, R26, R81). -/
abbrev Word32 := BitVec 32

/-- A command word `W`, presented to the block as one unit (R80). -/
abbrev CommandWord := BitVec 64

/-- A PackedFloat: four bytes, in this order at ascending offsets (R140). -/
structure PackedFloat where
  byte0 : Byte
  byte1 : Byte
  byte2 : Byte
  byte3 : Byte
deriving DecidableEq, Repr, Inhabited

end Sys2Proof
end

