-- ==== Sys2Proof/Syntax.lean ====
section
/-! DEFINITION. The commands of the block, one constructor per row of spec/opcode_table.json (30_encoding.md R84),
with the operands of R83: unsigned, no scaling, no extension. The command set has no other names for these words
(the pseudo-instructions of R92 are host sequences: Sys2Proof/Machine/HostSequences.lean). -/

namespace Sys2Proof

/-- A command of the block (R84). `off` is a byte offset into `MSG`, `n` a length in bytes, `idx` a register index
(legal when at most 6, see `Instr.WellFormed`), `b` a byte, `v` a 16-bit word, `f` a binary32 pattern (R83). -/
inductive Instr where
  | msgnew
  | msgdrop
  | setlen (n : Word16)
  | shrink (n : Word16)
  | putb (off : Word16) (b : Byte)
  | getb (off : Word16)
  | rdreg (idx : Word16)
  | wrbe16 (off : Word16) (v : Word16)
  | rdbe16 (off : Word16)
  | crcapply
  | crccheck
  | fpack (off : Word16) (f : Word32)
  | funpack (off : Word16)
deriving DecidableEq, Repr

end Sys2Proof
end

