-- ==== Sys2Proof/WellFormed.lean ====
section
/-! DEFINITION. Which terms of `Instr` are legal commands. Operands have the widths of their fields (R81, R83), so the
one check left is the register index of RDREG: "idx 0 .. 6" (44_buffer_control.md R176, R177; 30_encoding.md R85). -/

namespace Sys2Proof

/-- `i` is a legal command: an RDREG names one of the registers 0 .. 6 (R85, R176). -/
def Instr.WellFormed : Instr → Bool
  | .rdreg idx => decide (idx.toNat ≤ 6)
  | .msgnew | .msgdrop | .setlen _ | .shrink _ | .putb _ _ | .getb _ | .wrbe16 _ _ | .rdbe16 _ | .crcapply
  | .crccheck | .fpack _ _ | .funpack _ => true

end Sys2Proof
end

