-- ==== Sys2Proof/Decode.lean ====
section
/-! DEFINITION. Command encoding (30_encoding.md): the fields of a command word (R81), the five formats (R82), the
opcode table (R84), the decoder, total on all 2^64 words and rejecting by name (R85, R88), and the encoder (R91). -/

namespace Sys2Proof

/-- Field `OPC`, bits 63:56 (R81). -/
def opcField (w : CommandWord) : Byte := w.extractLsb' 56 8

/-- Field `RSV`, bits 55:48, "must be 0x00 in every command" (R81). -/
def rsvField (w : CommandWord) : Byte := w.extractLsb' 48 8

/-- Field `A`, bits 47:32 (R81). -/
def aField (w : CommandWord) : Word16 := w.extractLsb' 32 16

/-- Field `D`, bits 31:0 (R81). -/
def dField (w : CommandWord) : Word32 := w.extractLsb' 0 32

/-- The operand formats of R82. -/
inductive Format where
  | Z | A | AB | AH | AW
deriving DecidableEq, Repr

/-- The bits a format fixes (R82, column "mask"). -/
def Format.mask : Format → CommandWord
  | .Z => 0xFFFFFFFFFFFFFFFF#64
  | .A => 0xFFFF0000FFFFFFFF#64
  | .AB => 0xFFFF0000FFFFFF00#64
  | .AH => 0xFFFF0000FFFF0000#64
  | .AW => 0xFFFF000000000000#64

/-- A row of the opcode table of R84; `build` makes the command from the fields `A` and `D` (R83). -/
structure Row where
  mnemonic : String
  opc : Byte
  format : Format
  build : Word16 → Word32 → Instr

/-- The fixed bits of a row: "`match = OPC << 56`" (R82). -/
def Row.matchWord (r : Row) : CommandWord := (r.opc.setWidth 64) <<< 56

/-- The bits of a row that must equal its match word (R82). -/
def Row.mask (r : Row) : CommandWord := r.format.mask

/-- The opcode of RDREG, the one row with an extra constraint on `A` (R85). -/
def opcRdreg : Byte := 0xA6#8

/-- The thirteen commands of R84, in the table's order. -/
def opcodeTable : List Row :=
  [ ⟨"MSGNEW", 0xA0#8, .Z, fun _ _ => .msgnew⟩,
    ⟨"MSGDROP", 0xA1#8, .Z, fun _ _ => .msgdrop⟩,
    ⟨"SETLEN", 0xA2#8, .A, fun a _ => .setlen a⟩,
    ⟨"SHRINK", 0xA3#8, .A, fun a _ => .shrink a⟩,
    ⟨"PUTB", 0xA4#8, .AB, fun a d => .putb a (d.extractLsb' 0 8)⟩,
    ⟨"GETB", 0xA5#8, .A, fun a _ => .getb a⟩,
    ⟨"RDREG", opcRdreg, .A, fun a _ => .rdreg a⟩,
    ⟨"WRBE16", 0xB0#8, .AH, fun a d => .wrbe16 a (d.extractLsb' 0 16)⟩,
    ⟨"RDBE16", 0xB1#8, .A, fun a _ => .rdbe16 a⟩,
    ⟨"CRCAPPLY", 0xC0#8, .Z, fun _ _ => .crcapply⟩,
    ⟨"CRCCHECK", 0xC1#8, .Z, fun _ _ => .crccheck⟩,
    ⟨"FPACK", 0xF0#8, .AW, fun a d => .fpack a d⟩,
    ⟨"FUNPACK", 0xF1#8, .A, fun a _ => .funpack a⟩ ]

/-- Why a command word is illegal (R85, R88): an unassigned OPC, a must-be-zero bit set, or an RDREG index above 6. -/
inductive Illegal where
  | unassignedOpcode (opc : Byte)
  | mustBeZeroBitSet (w : CommandWord)
  | noSuchRegister (idx : Word16)
deriving DecidableEq, Repr

/-- The decoding procedure of R85, total on all words. -/
def decode (w : CommandWord) : Except Illegal Instr :=
  match opcodeTable.find? (fun r => r.opc == opcField w) with
  | none => .error (.unassignedOpcode (opcField w))
  | some row =>
    if w &&& row.mask ≠ row.matchWord then .error (.mustBeZeroBitSet w)
    else if row.opc = opcRdreg ∧ 6 < (aField w).toNat then .error (.noSuchRegister (aField w))
    else .ok (row.build (aField w) (dField w))

/-- The opcode of a command (R84, column OPC). -/
def Instr.opcode : Instr → Byte
  | .msgnew => 0xA0#8
  | .msgdrop => 0xA1#8
  | .setlen _ => 0xA2#8
  | .shrink _ => 0xA3#8
  | .putb _ _ => 0xA4#8
  | .getb _ => 0xA5#8
  | .rdreg _ => opcRdreg
  | .wrbe16 _ _ => 0xB0#8
  | .rdbe16 _ => 0xB1#8
  | .crcapply => 0xC0#8
  | .crccheck => 0xC1#8
  | .fpack _ _ => 0xF0#8
  | .funpack _ => 0xF1#8

/-- The `A` operand of a command, "absent operands 0" (R83, R91). -/
def Instr.operandA : Instr → Word16
  | .msgnew | .msgdrop | .crcapply | .crccheck => 0#16
  | .setlen n | .shrink n => n
  | .putb off _ | .getb off | .wrbe16 off _ | .rdbe16 off | .fpack off _ | .funpack off => off
  | .rdreg idx => idx

/-- The `D` operand of a command, "absent operands 0" (R83, R91). -/
def Instr.operandD : Instr → Word32
  | .putb _ b => b.setWidth 32
  | .wrbe16 _ v => v.setWidth 32
  | .fpack _ f => f
  | .msgnew | .msgdrop | .setlen _ | .shrink _ | .getb _ | .rdreg _ | .rdbe16 _ | .crcapply | .crccheck
  | .funpack _ => 0#32

/-- The command word of a command: "`W = (OPC << 56) | (A << 32) | D`" (R91), that is the fields of R81 side by side
with `RSV` zero. -/
def encode (i : Instr) : CommandWord := i.opcode ++ 0x00#8 ++ i.operandA ++ i.operandD

/-- The command word whose bits the host numbers as spec/opcode_table.json does: bit 0 is bit 0 of `W`, and every bit
from `nbits` up is 0. DEDUCED, safe (notes/assumptions 11). -/
def tableWord (nbits w : Nat) : CommandWord := BitVec.ofNat 64 (w % 2 ^ nbits)

/-- The command the decoder reads from a table row's word; `none` where it refuses, or where the bits asked for are
more than a command word has (R80: 64). -/
def decodeTableWord (nbits w : Nat) : Option Instr :=
  if nbits ≤ 64 then
    match decode (tableWord nbits w) with
    | .ok i => some i
    | .error _ => none
  else none

end Sys2Proof
end

