-- ==== Sys2Proof/Config.lean ====
section
/-! DEFINITION. The implementation parameters of 00_scope.md R6 and the values the spec leaves open.
`Config` carries the one parameter with a source-given default (`CAP`); each OPEN parameter of 92_eei_decisions.md
(D9, D10, D11) and the unspecified message bytes (D17) is an opaque constant without a body, so that no proof can
learn its value (notes/assumptions 2, 3, 4). -/

namespace Sys2Proof

/-- The configuration argument of R6: the capacity of the message buffer in bytes, 1 ≤ CAP ≤ 65535 (D3). -/
structure Config where
  cap : Nat
  cap_pos : 1 ≤ cap
  cap_le : cap ≤ 65535
deriving DecidableEq, Repr

/-- The default configuration: "capacity = a configured maximum, default 256" (R6). -/
def Config.default : Config := ⟨256, by decide, by decide⟩

/-- FREE VALUE. The byte that `MSG[off]` holds after the `draw`-th reset or MSGNEW, until a command writes it:
"a model must treat each as an arbitrary byte (a fresh draw per byte, under no law)" (R30, D17, U4). -/
opaque Config.unspecifiedByte (draw off : Nat) : Byte

/-- FREE VALUE. `FPACK_NONNORMAL` (R6, R145, D9): the four bytes FPACK stores for an operand whose exponent field is
0x00 or 0xFF; a function of the operand alone. -/
opaque Config.fpackNonnormal (f : Word32) : PackedFloat

/-- FREE VALUE. `FUNPACK_NONEXACT` (R6, R152, D10): FUNPACK's result for `be = 255`, and for `be = 0` with `m` odd;
a function of the four bytes alone. -/
opaque Config.funpackNonexact (p : PackedFloat) : Word32

/-- FREE VALUE. The sign bit of `NAN_SENTINEL` (R6, D11). -/
opaque Config.nanSign : BitVec 1

/-- FREE VALUE. The fraction field of `NAN_SENTINEL`, less 1: the fraction is "not all zero" (R6), so it ranges over
1 .. 2^23 - 1. -/
opaque Config.nanFractionLess1 : Fin 8388607

/-- `NAN_SENTINEL` (R6, R154, D11): any binary32 NaN pattern, "bits 30:23 all ones, bits 22:0 not all zero". Every
such pattern is a value of the two free constants above, and nothing else is. -/
def Config.nanSentinel : Word32 :=
  Config.nanSign ++ 0xFF#8 ++ BitVec.ofNat 23 (Config.nanFractionLess1.val + 1)

end Sys2Proof
end

