-- ==== Sys2Proof/Machine/State.lean ====
section
/-! DEFINITION. The state of the block (10_state.md) as plain data, the host's steps waiting at the command port
(00_scope.md R12), the ways a step could stop, and the state after reset (R33). -/

namespace Sys2Proof.Machine

/-- The bytes of `MSG` that a command has written since the last reset or MSGNEW: pairs of an offset and a byte, offsets
strictly rising. An offset that is not listed reads as `Config.unspecifiedByte` (R30; notes/assumptions 3). -/
abbrev Memory := List Host.Cell

/-- The canonical form of a message memory of capacity `cap`: offsets strictly rising, all below `cap` (R50). -/
abbrev Memory.wf (cap : Nat) (m : Memory) : Prop :=
  m.Pairwise (fun c d => c.1 < d.1) ∧ ∀ c ∈ m, c.1 < cap

/-- One host step (R12): "issue one command word", or "assert reset" (R250: not a command word, no encoding). -/
inductive HostStep where
  | command (w : CommandWord)
  | reset
deriving DecidableEq, Repr

/-- Why the machine stops. The spec gives every command word a meaning in every reachable state, so this is raised only
in states that no run reaches. -/
inductive Fault where
  /-- Raised by `memRead` and `memWrite` when a MemRead or MemWrite of `n` bytes at `off` leaves the buffer: R10 defines
  them "only when `off + n <= CAP`". Only CRCAPPLY and CRCCHECK can raise it, and only with `LEN > CAP`, which R24 rules
  out. DEDUCED, safe: the model stops where the spec gives no meaning (notes/assumptions 12). -/
  | outsideMsg (off n : Nat)
deriving DecidableEq, Repr

/-- Why a command has no meaning in the model. -/
inductive Refusal where
  /-- Raised by an arm of `exec` whose command has no meaning yet. No arm raises it. Safe. -/
  | notModelled (mnemonic : String)
deriving DecidableEq, Repr

/-- The state. The first six fields are the spec's state tuple (10_state.md R20 to R30); `out` is what the command port's
read-data lines carry (R10, R86); `cfg`, `draws` and `pending` are the model's own: the configuration argument of R6,
the number of the draw that the unspecified bytes of `MSG` come from (R30), and the host's steps to come (R12). -/
structure State where
  /-- `PRESENT` (R23): a message exists in the block. -/
  present : Bool
  /-- `LEN` (R24): the logical length of the message in bytes. -/
  len : Word16
  /-- `STATUS` (R25): the outcome of the most recent command other than RDREG. -/
  status : Byte
  /-- `RES` (R26): the data result of the most recent data-returning command. -/
  res : Word32
  /-- `CRCR` (R27): the checksum register, before the byte swap. -/
  crcr : Word16
  /-- `MSG` (R30): the bytes written since the last reset or MSGNEW. -/
  msg : Memory
  /-- The model's own: how many times `MSG` has become unspecified (resets after the first, and MSGNEWs).
  DESIGN CHOICE, safe (notes/assumptions 4). -/
  draws : Nat
  /-- The model's own: the configuration (R6); no step changes it (R31). DESIGN CHOICE (notes/assumptions 1). -/
  cfg : Config
  /-- The value the last host step returned on the read-data lines; `none` where they "carry nothing the host may use"
  (R86). DESIGN CHOICE of the form, safe (notes/assumptions 6). -/
  out : Option Word32
  /-- The model's own: the host steps not yet taken, the next one first (R12). DESIGN CHOICE, safe (notes/assumptions 5). -/
  pending : List HostStep
deriving DecidableEq, Repr

/-- `CAP`, the capacity of the message buffer (R6). -/
def State.cap (s : State) : Nat := s.cfg.cap

/-- The state after reset (R33, R251): no message, `CRCR = 0xFFFF`, every byte of `MSG` unspecified (nothing listed);
the default configuration (R6) and a host that has issued nothing. DESIGN CHOICE for the capacity, unsafe
(notes/assumptions 1); the reset values are those R33 decides (notes/assumptions 16). -/
def State.reset : State where
  present := false
  len := 0x0000#16
  status := 0x00#8
  res := 0x00000000#32
  crcr := 0xFFFF#16
  msg := []
  draws := 0
  cfg := Config.default
  out := none
  pending := []

end Sys2Proof.Machine
end

