-- ==== Sys2Proof/Machine/Flags.lean ====
section
/-! DEFINITION. The outcome codes that `STATUS` holds (60_exceptions.md R221): the block's only flag-like result. The
block has no arithmetic condition codes (R25). -/

namespace Sys2Proof.Machine

/-- The outcome taxonomy of R221: success, the eleven local faults, and the device-reported faults (R229) with their
7-bit device error code. -/
inductive Code where
  | ok | noBuf | tooLong | dataTooLong | badBuf | msgErr | tooShort | inval | timeout | mismatch | interlock | system
  | device (dc : BitVec 7)
deriving DecidableEq, Repr

/-- The 8-bit code of an outcome (R221, D5); a device-reported fault is `dc | 0x80` (R229). DESIGN CHOICE of the
decided numbers, unsafe for a claim on a number other than 0 and bit 7 (notes/assumptions 7). -/
def Code.value : Code → Byte
  | .ok => 0x00#8
  | .noBuf => 0x01#8
  | .tooLong => 0x02#8
  | .dataTooLong => 0x03#8
  | .badBuf => 0x04#8
  | .msgErr => 0x05#8
  | .tooShort => 0x06#8
  | .inval => 0x07#8
  | .timeout => 0x08#8
  | .mismatch => 0x09#8
  | .interlock => 0x7E#8
  | .system => 0x7F#8
  | .device dc => dc.setWidth 8 ||| 0x80#8

/-- The outcomes that the block itself produces (R221, last column). -/
def Code.produced : List Code := [.ok, .noBuf, .tooLong, .badBuf, .tooShort, .inval]

end Sys2Proof.Machine
end

