-- ==== Sys2Proof/Machine/Ops.lean ====
section
/-! DEFINITION. The operations every command is written with: the state access primitives of 00_scope.md R10, the one
fault mechanism of 60_exceptions.md R220 (`raise`; the block has no trap entry and no return, R227, R228), the checks
of R223 and R225, and what a reset does (70_reset_and_hazards.md R251). -/

namespace Sys2Proof.Machine

/-- What a step or a command answers. -/
abbrev Result := Host.Outcome State Fault Refusal

/-! ### Outcomes -/

/-- `raise E_X` (R10, R220): "`STATUS <- E_X`, and the command ends at once with no further state change". The command
returns no value (R86). -/
def raise (c : Code) (s : State) : Result := .next { s with status := c.value, out := none }

/-- `done` (R10): "`STATUS <- E_OK`, and the command ends". It returns no value (R86). -/
def done (s : State) : Result := .next { s with status := Code.ok.value, out := none }

/-- `out(v)` (R10, R177): return `v` on the read-data lines; no register and no byte changes. -/
def returnValue (v : Word32) (s : State) : Result := .next { s with out := some v }

/-- What an illegal command word does (R88): "`STATUS <- E_INVAL` and no other state changes". -/
def execIllegal (s : State) : Result := raise .inval s

/-! ### Checks -/

/-- The presence check (R223, R225 step 2): "`PRESENT = 0` -> `E_NOBUF`". -/
def requireMessage (s : State) (k : Result) : Result := if s.present then k else raise .noBuf s

/-- The range check (R52): an access of `n` bytes at `off` is in range exactly when `off + n <= CAP`, computed without
wrap-around; otherwise `E_INVAL`. -/
def requireRange (off n : Nat) (s : State) (k : Result) : Result :=
  if off + n ≤ s.cap then k else raise .inval s

/-! ### The message buffer -/

/-- The byte listed at an offset, if there is one. -/
def Memory.lookup : Memory → Nat → Option Byte
  | [], _ => none
  | (a, b) :: m, off => if a = off then some b else Memory.lookup m off

/-- List the byte `b` at offset `off`, in place of the one listed there, keeping the offsets rising. -/
def Memory.insert : Memory → Nat → Byte → Memory
  | [], off, b => [(off, b)]
  | (a, c) :: m, off, b =>
    if off < a then (off, b) :: (a, c) :: m
    else if a = off then (off, b) :: m
    else (a, c) :: Memory.insert m off b

/-- List the bytes `bs` at `off`, `off + 1`, and on. -/
def Memory.insertAll : Memory → Nat → List Byte → Memory
  | m, _, [] => m
  | m, off, b :: bs => Memory.insertAll (Memory.insert m off b) (off + 1) bs

/-- What an offset that is not listed reads as: the free byte of the current draw (R30). -/
def unlistedByte (s : State) (off : Nat) : Byte := Config.unspecifiedByte s.draws off

/-- `MSG[off]` (R10): the byte listed there, or the unspecified byte of the current draw. -/
def readByte (s : State) (off : Nat) : Byte := (s.msg.lookup off).getD (unlistedByte s off)

/-- The bytes `MSG[off], ..., MSG[off+n-1]` (R10, R54). -/
def readBytes (s : State) (off n : Nat) : List Byte := (List.range n).map (fun k => readByte s (off + k))

/-- `MemRead(off, n)` (R10), "defined only when `off + n <= CAP`"; no side effect. -/
def memRead (off n : Nat) (s : State) (k : List Byte → Result) : Result :=
  if off + n ≤ s.cap then k (readBytes s off n) else .fault (.outsideMsg off n)

/-- `MemWrite(off, n, bytes)` (R10), "defined only when `off + n <= CAP`": "it changes those n bytes and nothing else". -/
def memWrite (off : Nat) (bytes : List Byte) (s : State) (k : State → Result) : Result :=
  if off + bytes.length ≤ s.cap then k { s with msg := s.msg.insertAll off bytes }
  else .fault (.outsideMsg off bytes.length)

/-- Every byte of `MSG` becomes unspecified (R30): nothing is listed any more and the next draw begins, "a fresh draw per
byte", not "the previous contents". -/
def forgetMessage (s : State) : State := { s with msg := [], draws := s.draws + 1 }

/-! ### Reset -/

/-- A reset of a running block (R250, R251): the registers of R33, every byte of `MSG` unspecified, the parameters
unchanged; it returns no value. -/
def hostReset (s : State) : State :=
  { State.reset with cfg := s.cfg, draws := s.draws + 1, pending := s.pending }

end Sys2Proof.Machine
end

