-- ==== Sys2Proof/Machine/Operands.lean ====
section
/-! DEFINITION. Values made from operands, bytes and registers: `swap16` (00_scope.md R9), the big-endian 16-bit codec
(41_byte_packing.md R110), and the register read-out of RDREG (44_buffer_control.md R176). The block has no other operand
form: an operand is a field of the command word, taken as it is (R83). -/

namespace Sys2Proof.Machine

/-- `swap16(v) = ((v << 8) | (v >> 8)) & 0xFFFF` (R9). -/
def swap16 (v : Word16) : Word16 := (v <<< 8) ||| (v >>> 8)

/-- `be16_enc(v) = (v[15:8], v[7:0])` (R110), the more significant byte first. -/
def be16Enc (v : Word16) : List Byte := [v.extractLsb' 8 8, v.extractLsb' 0 8]

/-- `be16_dec(b0, b1) = b0 ++ b1` (R110). -/
def be16Dec (b0 b1 : Byte) : Word16 := b0 ++ b1

/-- `be16_dec` of the two bytes a 2-byte MemRead gives (R113, R128). A MemRead of 2 bytes always gives two. -/
def be16DecList : List Byte → Word16
  | [b0, b1] => be16Dec b0 b1
  | _ => 0x0000#16

/-- The registers that RDREG reads (R176). -/
inductive Reg where
  | ctrl | len | status | res | crcr | csum | capr
deriving DecidableEq, Repr

/-- The RDREG index of a register (R176). -/
def Reg.index : Reg → Word16
  | .ctrl => 0#16
  | .len => 1#16
  | .status => 2#16
  | .res => 3#16
  | .crcr => 4#16
  | .csum => 5#16
  | .capr => 6#16

/-- The register an RDREG index names; indices 7 .. 65535 name none (R176). -/
def Reg.ofIndex (idx : Word16) : Option Reg :=
  match idx.toNat with
  | 0 => some .ctrl
  | 1 => some .len
  | 2 => some .status
  | 3 => some .res
  | 4 => some .crcr
  | 5 => some .csum
  | 6 => some .capr
  | _ => none

/-- The 32 bits a register returns; "fields not listed read as zero" (R176). `CSUM` and `CAPR` are views that hold no
state of their own (R28, R29). -/
def readReg (s : State) : Reg → Word32
  | .ctrl => if s.present then 0x00000001#32 else 0x00000000#32
  | .len => s.len.setWidth 32
  | .status => s.status.setWidth 32
  | .res => s.res
  | .crcr => s.crcr.setWidth 32
  | .csum => (swap16 s.crcr).setWidth 32
  | .capr => BitVec.ofNat 32 s.cap

end Sys2Proof.Machine
end

