-- ==== Sys2Proof/Machine/BufferControl.lean ====
section
/-! DEFINITION. Buffer control (44_buffer_control.md): MSGNEW, MSGDROP, SETLEN, SHRINK, PUTB, GETB, RDREG. -/

namespace Sys2Proof.Machine

/-- MSGNEW (R170): `PRESENT <- 1`, `LEN <- 0`, every byte of `MSG` unspecified, done. It makes no presence check. -/
def execMsgnew (s : State) : Result :=
  done { forgetMessage s with present := true, len := 0x0000#16 }

/-- MSGDROP (R171): `PRESENT <- 0`, `LEN <- 0`, done. It makes no presence check and does not write `MSG`. -/
def execMsgdrop (s : State) : Result :=
  done { s with present := false, len := 0x0000#16 }

/-- SETLEN n (R172): `E_NOBUF`, then `E_TOOLONG` if `n > CAP`, else `LEN <- n`. -/
def execSetlen (n : Word16) (s : State) : Result :=
  requireMessage s <|
  if n.toNat > s.cap then raise .tooLong s
  else done { s with len := n }

/-- SHRINK n (R173): `E_NOBUF`, then `E_TOOSHORT` if `n > LEN`, else `LEN <- n`. -/
def execShrink (n : Word16) (s : State) : Result :=
  requireMessage s <|
  if n.toNat > s.len.toNat then raise .tooShort s
  else done { s with len := n }

/-- PUTB off, b (R174): `E_NOBUF`, range of 1 byte, `MSG[off] <- b`. -/
def execPutb (off : Word16) (b : Byte) (s : State) : Result :=
  requireMessage s <| requireRange off.toNat 1 s <|
  memWrite off.toNat [b] s done

/-- GETB off (R175): `E_NOBUF` (with `RES` unchanged), range of 1 byte, `RES <- zext_32(MSG[off])`. -/
def execGetb (off : Word16) (s : State) : Result :=
  requireMessage s <| requireRange off.toNat 1 s <|
  memRead off.toNat 1 s fun bs => done { s with res := (bs.headD 0x00#8).setWidth 32 }

/-- RDREG idx (R177): return the register, with no state change and no presence check; an index above 6 is an illegal
command word (R85, R88). DEDUCED, safe (notes/assumptions 9). -/
def execRdreg (idx : Word16) (s : State) : Result :=
  match Reg.ofIndex idx with
  | some r => returnValue (readReg s r) s
  | none => execIllegal s

end Sys2Proof.Machine
end

