-- ==== Sys2Proof/Machine/BytePacking.lean ====
section
/-! DEFINITION. Byte packing (41_byte_packing.md): WRBE16, RDBE16. -/

namespace Sys2Proof.Machine

/-- WRBE16 off, v (R111): `E_NOBUF`, range of 2 bytes, then `v` at `off`, most significant byte first. -/
def execWrbe16 (off v : Word16) (s : State) : Result :=
  requireMessage s <| requireRange off.toNat 2 s <|
  memWrite off.toNat (be16Enc v) s done

/-- RDBE16 off (R113): with no message `RES <- 0` and `E_NOBUF` (R112); range of 2 bytes with `RES` unchanged on a fault;
else `RES <- zext_32` of the big-endian 16-bit value at `off`. -/
def execRdbe16 (off : Word16) (s : State) : Result :=
  if s.present then
    requireRange off.toNat 2 s <|
    memRead off.toNat 2 s fun bs => done { s with res := (be16DecList bs).setWidth 32 }
  else raise .noBuf { s with res := 0x00000000#32 }

end Sys2Proof.Machine
end

