-- ==== Sys2Proof/Machine/Checksum.lean ====
section
/-! DEFINITION. The checksum engine (42_checksum.md): the CRC as a function on bytes, CRCAPPLY, CRCCHECK. -/

namespace Sys2Proof.Machine

/-- The initial value of the checksum register (R120). -/
def crcInit : Word16 := 0xFFFF#16

/-- The polynomial constant, in reflected form (R120). -/
def crcPoly : Word16 := 0xA001#16

/-- One bit step (R121): test bit 0, shift right by one, exclusive-or with the polynomial if the tested bit was set. -/
def crcBit (r : Word16) : Word16 :=
  if r.getLsbD 0 then (r >>> 1) ^^^ crcPoly else r >>> 1

/-- One byte step (R122): the byte into the low byte of the register, then eight bit steps. -/
def crcByte (r : Word16) (b : Byte) : Word16 := crcBit^[8] (r ^^^ b.setWidth 16)

/-- The register after a list of bytes, the first byte first, from 0xFFFF (R124). -/
def crc16 (bs : List Byte) : Word16 := bs.foldl crcByte crcInit

/-- The checksum: the register with its bytes swapped once, after all bytes (R125). -/
def checksum (bs : List Byte) : Word16 := swap16 (crc16 bs)

/-- The covered region of the message (R123): every byte of it but the last two, in ascending offset order. -/
def coveredRegion (s : State) : List Byte := readBytes s 0 (s.len.toNat - 2)

/-- The checks both commands make, in this order (R225): presence, then "`LEN < 2` -> `E_TOOSHORT`". -/
def requireChecksumField (s : State) (k : Result) : Result :=
  requireMessage s <| if s.len.toNat < 2 then raise .tooShort s else k

/-- CRCAPPLY (R127): the final register into `CRCR`, and its swapped value into the message's last two bytes with the
big-endian writer (R126). -/
def execCrcapply (s : State) : Result :=
  requireChecksumField s <|
  memRead 0 (s.len.toNat - 2) s fun covered =>
  memWrite (s.len.toNat - 2) (be16Enc (swap16 (crc16 covered))) { s with crcr := crc16 covered } done

/-- CRCCHECK (R129): the final register into `CRCR`, then `E_BADBUF` if the stored checksum (R128) is not its swapped
value. -/
def execCrccheck (s : State) : Result :=
  requireChecksumField s <|
  memRead 0 (s.len.toNat - 2) s fun covered =>
  memRead (s.len.toNat - 2) 2 s fun stored =>
  if be16DecList stored = swap16 (crc16 covered) then done { s with crcr := crc16 covered }
  else raise .badBuf { s with crcr := crc16 covered }

end Sys2Proof.Machine
end

