-- ==== Sys2Proof/Machine/FloatCodec.lean ====
section
/-! DEFINITION. The float codec (43_float_codec.md): the packed format, the source's encoding and decoding formulas with
the exact values they speak of, and the commands FPACK, FUNPACK. -/

namespace Sys2Proof.Machine

/-! ### Native floats: binary32 patterns (R143) -/

/-- `S = f[31]` (R143). -/
def floatSign (f : Word32) : BitVec 1 := f.extractLsb' 31 1

/-- `E = f[30:23]` (R143). -/
def floatExp (f : Word32) : Byte := f.extractLsb' 23 8

/-- `F = f[22:0]` (R143). -/
def floatFrac (f : Word32) : BitVec 23 := f.extractLsb' 0 23

/-- A normal value: `1 <= E <= 254` (R143). -/
def isNormal (f : Word32) : Bool := decide (1 ≤ (floatExp f).toNat ∧ (floatExp f).toNat ≤ 254)

/-- A NaN pattern: "bits 30:23 all ones, bits 22:0 not all zero" (R6). -/
def isNaN (f : Word32) : Bool := floatExp f == 0xFF#8 && floatFrac f != 0#23

/-- `-1` for a set sign, `+1` for a clear one (R143, R151). -/
def signFactor (negative : Bool) : ℚ := if negative then -1 else 1

/-- The number a binary32 pattern denotes (R143; subnormals and zero `F x 2^-149`, 93_implementation_defined.md G1); none
for infinities and NaNs. PRESUMED, unsafe if the native format is another (notes/assumptions 8); no command uses it. -/
def floatValue (f : Word32) : Option ℚ :=
  let sign := signFactor (floatSign f == 1#1)
  if isNormal f then some (sign * (1 + (floatFrac f).toNat / 2 ^ 23) * 2 ^ ((floatExp f).toNat - 127 : ℤ))
  else if floatExp f = 0x00#8 then some (sign * (floatFrac f).toNat * 2 ^ (-149 : ℤ))
  else none

/-! ### The packed format -/

/-- The bytes of a packed float at ascending offsets (R140). -/
def packedBytes (p : PackedFloat) : List Byte := [p.byte0, p.byte1, p.byte2, p.byte3]

/-! ### Encoding -/

/-- The output bytes of R142 for a sign, a biased exponent `be` in 0 .. 255 and a 24-bit mantissa `m`. -/
def packFormula (sign : Bool) (be m : Nat) : PackedFloat where
  byte0 := BitVec.ofNat 8 ((m >>> 8) &&& 0xFF)
  byte1 := BitVec.ofNat 8 (m &&& 0xFF)
  byte2 := BitVec.ofNat 8 ((if sign then 0x80 else 0x00) ||| ((be >>> 1) &&& 0x7F))
  byte3 := BitVec.ofNat 8 (((be &&& 1) <<< 7) ||| ((m >>> 16) &&& 0x7F))

/-- The packed bytes of a normal operand (R144): `[f[15:8], f[7:0], f[31:24], f[23:16]]`. -/
def packNormal (f : Word32) : PackedFloat where
  byte0 := f.extractLsb' 8 8
  byte1 := f.extractLsb' 0 8
  byte2 := f.extractLsb' 24 8
  byte3 := f.extractLsb' 16 8

/-- What FPACK stores for an operand (R146): R144 for a normal one, the parameter `FPACK_NONNORMAL` otherwise (R145). -/
def pack (f : Word32) : PackedFloat := if isNormal f then packNormal f else Config.fpackNonnormal f

/-- FPACK off, f (R146): `E_NOBUF`, range of 4 bytes, then the packed bytes at `off`. No operand is a fault. -/
def execFpack (off : Word16) (f : Word32) (s : State) : Result :=
  requireMessage s <| requireRange off.toNat 4 s <|
  memWrite off.toNat (packedBytes (pack f)) s done

/-! ### Decoding -/

/-- `sign = byte2 & 0x80`, "non-zero means negative" (R150). -/
def packedSign (p : PackedFloat) : Bool := p.byte2 &&& 0x80#8 != 0#8

/-- `be = ((byte2 & 0x7F) << 1) | ((byte3 >> 7) & 1)`, 0 .. 255 (R150). -/
def packedExp (p : PackedFloat) : Nat :=
  ((p.byte2.toNat &&& 0x7F) <<< 1) ||| ((p.byte3.toNat >>> 7) &&& 1)

/-- `m = (1 << 23) | ((byte3 & 0x7F) << 16) | (byte0 << 8) | byte1` (R150). -/
def packedMantissa (p : PackedFloat) : Nat :=
  (1 <<< 23) ||| ((p.byte3.toNat &&& 0x7F) <<< 16) ||| (p.byte0.toNat <<< 8) ||| p.byte1.toNat

/-- The decoded value as an exact number, `± m x 2^(be - 150)` (R151). -/
def packedValue (p : PackedFloat) : ℚ :=
  signFactor (packedSign p) * packedMantissa p * 2 ^ (packedExp p - 150 : ℤ)

/-- The decoded value as a native float pattern (R152): the halves exchanged back for `1 <= be <= 254`; the subnormal
`(s << 31) | (m >> 1)` for `be = 0` with `m` even; else the parameter `FUNPACK_NONEXACT`. -/
def unpack (p : PackedFloat) : Word32 :=
  if 1 ≤ packedExp p ∧ packedExp p ≤ 254 then p.byte2 ++ p.byte3 ++ p.byte0 ++ p.byte1
  else if packedExp p = 0 ∧ packedMantissa p % 2 = 0 then
    BitVec.ofNat 32 (((if packedSign p then 1 else 0) <<< 31) ||| (packedMantissa p >>> 1))
  else Config.funpackNonexact p

/-- The packed float in the four bytes of a MemRead (R140). A MemRead of 4 bytes always gives four. -/
def packedOfList : List Byte → PackedFloat
  | [b0, b1, b2, b3] => ⟨b0, b1, b2, b3⟩
  | _ => ⟨0x00#8, 0x00#8, 0x00#8, 0x00#8⟩

/-- The packed float stored at an offset (R140). -/
def packedAt (s : State) (off : Nat) : PackedFloat := packedOfList (readBytes s off 4)

/-- FUNPACK off (R153): with no message `RES <- NAN_SENTINEL` and `E_NOBUF` (R154); range of 4 bytes with `RES` unchanged
on a fault; else `RES <- g` by R152. -/
def execFunpack (off : Word16) (s : State) : Result :=
  if s.present then
    requireRange off.toNat 4 s <|
    memRead off.toNat 4 s fun bs => done { s with res := unpack (packedOfList bs) }
  else raise .noBuf { s with res := Config.nanSentinel }

end Sys2Proof.Machine
end

