-- ==== Sys2Proof/Machine/Dispatch.lean ====
section
/-! DEFINITION. One arm per command (30_encoding.md R84), each a direct call of its meaning. -/

namespace Sys2Proof.Machine

/-- What a command does. -/
def exec (i : Instr) (s : State) : Host.Outcome State Fault Refusal :=
  match i with
  | .msgnew => Sys2Proof.Machine.execMsgnew s
  | .msgdrop => Sys2Proof.Machine.execMsgdrop s
  | .setlen n => Sys2Proof.Machine.execSetlen n s
  | .shrink n => Sys2Proof.Machine.execShrink n s
  | .putb off b => Sys2Proof.Machine.execPutb off b s
  | .getb off => Sys2Proof.Machine.execGetb off s
  | .rdreg idx => Sys2Proof.Machine.execRdreg idx s
  | .wrbe16 off v => Sys2Proof.Machine.execWrbe16 off v s
  | .rdbe16 off => Sys2Proof.Machine.execRdbe16 off s
  | .crcapply => Sys2Proof.Machine.execCrcapply s
  | .crccheck => Sys2Proof.Machine.execCrccheck s
  | .fpack off f => Sys2Proof.Machine.execFpack off f s
  | .funpack off => Sys2Proof.Machine.execFunpack off s

end Sys2Proof.Machine
end

