-- ==== Sys2Proof/Machine/Step.lean ====
section
/-! DEFINITION. One step of the machine: one host step (00_scope.md R12), taken from the front of `pending`. -/

namespace Sys2Proof.Machine

/-- One step. With no host step waiting the block is passive: "it changes state only inside a host step" (R12). A reset
does R251. A command word is decoded first, before every other check (R88, R225): a legal one is executed, an illegal
one raises `E_INVAL`. -/
def step (s : State) : Host.Outcome State Fault Refusal :=
  match s.pending with
  | [] => .next s
  | .reset :: rest => .next (hostReset { s with pending := rest })
  | .command w :: rest =>
    match decode w with
    | .ok i => exec i { s with pending := rest }
    | .error _ => execIllegal { s with pending := rest }

/-- `s` with a command word, numbered as spec/opcode_table.json numbers it, as the host's next step (R12, R80): the block
fetches from no memory (R22), so this is where a command comes from (notes/assumptions 5, 11). -/
def State.withFetchWord (s : State) (nbits w : Nat) : State :=
  { s with pending := .command (tableWord nbits w) :: s.pending }

end Sys2Proof.Machine
end

