-- ==== Sys2Proof/Machine/Assembler.lean ====
section
/-! DEFINITION. The assembly syntax of listings (30_encoding.md R90) and the encoding of a line (R91). A line is a list of
characters; blanks and tabs separate and are otherwise ignored (DESIGN CHOICE, safe: notes/assumptions 13). -/

namespace Sys2Proof.Machine

/-- An operand of a listing (R90): a number, or a register name ("only as the RDREG operand"). -/
inductive AsmOperand where
  | number (n : Nat)
  | register (r : Reg)
deriving DecidableEq, Repr

/-- Why a line is rejected (R90). -/
inductive AsmError where
  | unknownMnemonic (name : List Char)
  | badOperand (text : List Char)
  | wrongOperandCount
  | operandDoesNotFit (n bits : Nat)
  | registerNotAllowed
deriving DecidableEq, Repr

/-! ### Characters -/

def isBlank (c : Char) : Bool := c == ' ' || c == '\t'

def trim (cs : List Char) : List Char :=
  ((cs.dropWhile isBlank).reverse.dropWhile isBlank).reverse

def decDigit (c : Char) : Option Nat := if '0' ≤ c ∧ c ≤ '9' then some (c.toNat - '0'.toNat) else none

def hexDigit (c : Char) : Option Nat :=
  if '0' ≤ c ∧ c ≤ '9' then some (c.toNat - '0'.toNat)
  else if 'a' ≤ c ∧ c ≤ 'f' then some (c.toNat - 'a'.toNat + 10)
  else if 'A' ≤ c ∧ c ≤ 'F' then some (c.toNat - 'A'.toNat + 10)
  else none

/-- The value of a non-empty list of digits in a base, the most significant first. -/
def digitsValue (base : Nat) (digit : Char → Option Nat) (cs : List Char) : Option Nat :=
  if cs.isEmpty then none
  else cs.foldl (fun acc c => do let a ← acc; let d ← digit c; pure (base * a + d)) (some 0)

/-- `decimal-number | "0x" hex-digits` (R90). -/
def parseNumber : List Char → Option Nat
  | '0' :: 'x' :: cs => digitsValue 16 hexDigit cs
  | cs => digitsValue 10 decDigit cs

/-- The register names of R90. -/
def registerNames : List (String × Reg) :=
  [("CTRL", .ctrl), ("LEN", .len), ("STATUS", .status), ("RES", .res), ("CRCR", .crcr), ("CSUM", .csum), ("CAPR", .capr)]

/-- An operand of R90. -/
def parseOperand (cs : List Char) : Except AsmError AsmOperand :=
  match registerNames.find? (fun p => p.1.toList == cs), parseNumber cs with
  | some p, _ => .ok (.register p.2)
  | none, some n => .ok (.number n)
  | none, none => .error (.badOperand cs)

/-- The pieces of a list between commas; one empty piece for an empty list. -/
def splitCommas : List Char → List (List Char)
  | [] => [[]]
  | c :: cs =>
    if c = ',' then [] :: splitCommas cs
    else match splitCommas cs with
      | [] => [[c]]
      | p :: ps => (c :: p) :: ps

def parseOperands (cs : List Char) : Except AsmError (List AsmOperand) :=
  if (trim cs).isEmpty then .ok [] else (splitCommas cs).mapM (fun p => parseOperand (trim p))

/-! ### Encoding a line -/

/-- "An assembler rejects an operand that does not fit its field" (R90). A number is taken at its value in either base:
a decimal FPACK operand, which R90 leaves open, is the number whose 32-bit pattern is stored (DESIGN CHOICE, safe:
notes/assumptions 17). -/
def fitNumber (bits : Nat) : AsmOperand → Except AsmError Nat
  | .number n => if n < 2 ^ bits then .ok n else .error (.operandDoesNotFit n bits)
  | .register _ => .error .registerNotAllowed

/-- The `A` operand: a register name stands for its index "only as the RDREG operand, = 0..6" (R90). -/
def fitOperandA (row : Row) : AsmOperand → Except AsmError Nat
  | .register r => if row.opc = opcRdreg then .ok r.index.toNat else .error .registerNotAllowed
  | .number n => fitNumber 16 (.number n)

/-- The width of a format's `D` operand, if it has one (R82). -/
def Format.dataBits : Format → Option Nat
  | .Z | .A => none
  | .AB => some 8
  | .AH => some 16
  | .AW => some 32

/-- "`W = (OPC << 56) | (A << 32) | D` with absent operands 0" (R91). -/
def assembleWord (opc : Byte) (a d : Nat) : CommandWord :=
  (opc.setWidth 64 <<< 56) ||| (BitVec.ofNat 64 a <<< 32) ||| BitVec.ofNat 64 d

/-- The word of a table row with operands, "the `A` operand first, the `D` operand second" (R90, R91). A line must have
exactly the operands of its row's format (DESIGN CHOICE, safe: notes/assumptions 18). -/
def assembleRow (row : Row) (operands : List AsmOperand) : Except AsmError CommandWord :=
  match row.format, Format.dataBits row.format, operands with
  | .Z, _, [] => .ok (assembleWord row.opc 0 0)
  | .A, _, [a] => do let a ← fitOperandA row a; pure (assembleWord row.opc a 0)
  | _, some bits, [a, d] => do
    let a ← fitOperandA row a
    let d ← fitNumber bits d
    pure (assembleWord row.opc a d)
  | _, _, _ => .error .wrongOperandCount

/-- A line of a listing (R90): `none` for a line without a command. -/
def assembleLine (line : List Char) : Except AsmError (Option CommandWord) :=
  let code := trim (line.takeWhile (fun c => c != ';'))
  if code.isEmpty then .ok none
  else
    let name := code.takeWhile (fun c => !isBlank c)
    match opcodeTable.find? (fun r => r.mnemonic.toList == name) with
    | none => .error (.unknownMnemonic name)
    | some row => do
      let operands ← parseOperands (code.dropWhile (fun c => !isBlank c))
      let w ← assembleRow row operands
      pure (some w)

end Sys2Proof.Machine
end

