-- ==== Sys2Proof/Machine/HostSequences.lean ====
section
/-! DEFINITION. The pseudo-instructions of 30_encoding.md R92: the host's sequences of commands of 45_host_sequences.md
(request builders, response parsers, receiving and transmitting), with the host-side tests between them. They are software
around the block (00_scope.md R5), written over `exec`; no command depends on them. DEDUCED
(notes/assumptions 10). -/

namespace Sys2Proof.Machine

/-! ### Parameters, outputs, results -/

/-- The parameters only the host sequences use (R6, D24): `NODE_ID`, any byte, and `FN_READ_REQ`, 0x03 or 0x04. -/
structure HostParams where
  nodeId : Byte
  readCodeIs04 : Bool
deriving DecidableEq, Repr

/-- `FN_READ_REQ` (R6, R191): "0x03 or 0x04". -/
def HostParams.fnReadReq (p : HostParams) : Byte := if p.readCodeIs04 then 0x04#8 else 0x03#8

/-- The function codes of R191 other than the read ones. -/
def fnWriteWord : Byte := 0x06#8

/-- See `fnWriteWord`. -/
def fnWriteWords : Byte := 0x10#8

/-- "one of the two read-equivalent codes" (R191, R197). -/
def isReadCode (fn : Byte) : Bool := fn == 0x03#8 || fn == 0x04#8

/-- "at most 80 words per read or multi-write request" (R204). -/
def maxWords : Nat := 80

/-- The optional outputs a sequence has written (`out x <- v`); `none` or `[]` is an output not written (R201). -/
structure Outputs where
  fn : Option Byte := none
  address : Option Word16 := none
  value : Option Word16 := none
  actualCount : Option Nat := none
  values : List Word16 := []
  bytes : List Byte := []
deriving DecidableEq, Repr

/-- How a sequence ends: its outcome as a code of R221, its outputs, and the block's state. -/
structure SeqEnd where
  outcome : Byte
  outputs : Outputs
  state : State
deriving DecidableEq, Repr

/-- What a sequence answers; it stops where a command of it stops. -/
abbrev SeqResult := Host.Outcome SeqEnd Fault Refusal

/-- `return E`. -/
def finish (c : Code) (o : Outputs) (s : State) : SeqResult := .next ⟨c.value, o, s⟩

/-- `issue X`: the command is executed, and the sequence goes on in the state after it. -/
def issue (i : Instr) (s : State) (k : State → SeqResult) : SeqResult :=
  match exec i s with
  | .next t => k t
  | .fault r => .fault r
  | .refused r => .refused r

/-- `RDREG` of a register, and the value it returned. A legal RDREG always returns one (R177). -/
def fetchReg (r : Reg) (s : State) (k : Word32 → State → SeqResult) : SeqResult :=
  issue (.rdreg r.index) s fun t => k (t.out.getD 0x00000000#32) t

/-- `if present() = 0: return NoBuffer`. -/
def ifPresent (s : State) (k : State → SeqResult) : SeqResult :=
  fetchReg .ctrl s fun c s => if c.getLsbD 0 then k s else finish .noBuf {} s

/-- `if st() != E_OK: return that outcome`. -/
def orStatus (s : State) (k : State → SeqResult) : SeqResult :=
  fetchReg .status s fun st s => if st.setWidth 8 = Code.ok.value then k s else .next ⟨st.setWidth 8, {}, s⟩

/-- `if st() != E_OK: return c`. -/
def orCode (c : Code) (o : Outputs) (s : State) (k : State → SeqResult) : SeqResult :=
  fetchReg .status s fun st s => if st.setWidth 8 = Code.ok.value then k s else finish c o s

/-- `if len() < n: return MessageTooShort`. -/
def ifLenAtLeast (n : Nat) (o : Outputs) (s : State) (k : State → SeqResult) : SeqResult :=
  fetchReg .len s fun l s => if l.toNat < n then finish .tooShort o s else k s

/-- `issue GETB off ; b <- res()`. -/
def fetchByte (off : Word16) (s : State) (k : Byte → State → SeqResult) : SeqResult :=
  issue (.getb off) s fun s => fetchReg .res s fun v s => k (v.setWidth 8) s

/-- `issue RDBE16 off ; v <- res()[15:0]`. -/
def fetchWord16 (off : Word16) (s : State) (k : Word16 → State → SeqResult) : SeqResult :=
  issue (.rdbe16 off) s fun s => fetchReg .res s fun v s => k (v.setWidth 16) s

/-! ### Request builders -/

/-- BUILD_READ_WORDS addr, count (R192). -/
def buildReadWords (p : HostParams) (addr count : Word16) (s : State) : SeqResult :=
  ifPresent s fun s =>
  if count.toNat > maxWords then finish .dataTooLong {} s else
  issue (.setlen 8#16) s fun s => orStatus s fun s =>
  issue (.putb 0#16 p.nodeId) s fun s =>
  issue (.putb 1#16 p.fnReadReq) s fun s =>
  issue (.wrbe16 2#16 addr) s fun s =>
  issue (.wrbe16 4#16 count) s fun s =>
  issue .crcapply s fun s => finish .ok {} s

/-- BUILD_WRITE_WORD addr, value (R193). -/
def buildWriteWord (p : HostParams) (addr value : Word16) (s : State) : SeqResult :=
  ifPresent s fun s =>
  issue (.setlen 8#16) s fun s => orStatus s fun s =>
  issue (.putb 0#16 p.nodeId) s fun s =>
  issue (.putb 1#16 fnWriteWord) s fun s =>
  issue (.wrbe16 2#16 addr) s fun s =>
  issue (.wrbe16 4#16 value) s fun s =>
  issue .crcapply s fun s => finish .ok {} s

/-- WRBE16 of each value in turn, two bytes apart, from `off` (R194). -/
def writeValues : List Word16 → Nat → State → (State → SeqResult) → SeqResult
  | [], _, s, k => k s
  | v :: vs, off, s, k =>
    issue (.wrbe16 (BitVec.ofNat 16 off) v) s fun s => writeValues vs (off + 2) s k

/-- BUILD_WRITE_WORDS addr, count, values (R194); `values` absent is `none`. R194 takes `values` as "a list of at least
`count` 16-bit words". -/
def buildWriteWords (p : HostParams) (addr count : Word16) (values : Option (List Word16)) (s : State) : SeqResult :=
  ifPresent s fun s =>
  match values with
  | none => finish .inval {} s
  | some vs =>
    if count.toNat > maxWords then finish .dataTooLong {} s else
    issue (.setlen (BitVec.ofNat 16 (9 + 2 * count.toNat))) s fun s => orStatus s fun s =>
    issue (.putb 0#16 p.nodeId) s fun s =>
    issue (.putb 1#16 fnWriteWords) s fun s =>
    issue (.wrbe16 2#16 addr) s fun s =>
    issue (.wrbe16 4#16 count) s fun s =>
    issue (.putb 6#16 (BitVec.ofNat 8 (2 * count.toNat))) s fun s =>
    writeValues (vs.take count.toNat) 7 s fun s =>
    issue .crcapply s fun s => finish .ok {} s

/-! ### Response parsers -/

/-- CHECK_CHECKSUM (R195): "`issue CRCCHECK; return st()`". -/
def checkChecksum (s : State) : SeqResult :=
  issue .crccheck s fun s => fetchReg .status s fun st s => .next ⟨st.setWidth 8, {}, s⟩

/-- DECODE_FUNCTION (R196). A device error report gives `Device(dc)`, whose number is `dc | 0x80` (R229). -/
def decodeFunction (s : State) : SeqResult :=
  ifPresent s fun s =>
  ifLenAtLeast 2 {} s fun s =>
  fetchByte 1#16 s fun fb s =>
  if fb.getLsbD 7 then
    ifLenAtLeast 3 { fn := some (fb &&& 0x7F#8) } s fun s =>
    fetchByte 2#16 s fun dc s =>
    if dc.getLsbD 7 then finish .msgErr { fn := some (fb &&& 0x7F#8) } s
    else finish (.device (dc.setWidth 7)) { fn := some (fb &&& 0x7F#8) } s
  else finish .ok { fn := some fb } s

/-- `r <- DECODE_FUNCTION (giving fn) ; if r != OK: return r` (R197, D24). The function code is the parser's own, not an
output of it. A DECODE_FUNCTION that ends OK has written `fn`. -/
def withFunction (s : State) (k : Byte → State → SeqResult) : SeqResult :=
  match decodeFunction s with
  | .next e =>
    if e.outcome = Code.ok.value then k (e.outputs.fn.getD 0x00#8) e.state else .next ⟨e.outcome, {}, e.state⟩
  | .fault r => .fault r
  | .refused r => .refused r

/-- RDBE16 of `n` words in turn, two bytes apart, from `off` (R197), in order. -/
def readValues : Nat → Nat → State → (List Word16 → State → SeqResult) → SeqResult
  | 0, _, s, k => k [] s
  | n + 1, off, s, k =>
    fetchWord16 (BitVec.ofNat 16 off) s fun v s => readValues n (off + 2) s fun vs s => k (v :: vs) s

/-- PARSE_READ_WORDS requested (R197). More words than requested is "a reportable overflow, not a hard failure" (R200). -/
def parseReadWords (requested : Nat) (s : State) : SeqResult :=
  withFunction s fun fn s =>
  if !isReadCode fn then finish .badBuf {} s else
  ifLenAtLeast 3 {} s fun s =>
  fetchByte 2#16 s fun bc s =>
  issue (.shrink (BitVec.ofNat 16 (bc.toNat + 5))) s fun s => orCode .tooShort {} s fun s =>
  issue .crccheck s fun s => orCode .badBuf {} s fun s =>
  if bc.toNat % 2 = 1 then finish .badBuf {} s else
  readValues (min requested (bc.toNat / 2)) 3 s fun vs s =>
  if bc.toNat / 2 > requested then finish .dataTooLong { actualCount := some (bc.toNat / 2), values := vs } s
  else finish .ok { actualCount := some (bc.toNat / 2), values := vs } s

/-- The common part of R198 and R199: the function code must be `code` (else `FN_MISMATCH`, taken as BadBuffer, D29), the
length shrinks to exactly 8, the checksum is verified, and the two echoed words are read. -/
def parseEcho (code : Byte) (s : State) (k : Word16 → Word16 → State → SeqResult) : SeqResult :=
  withFunction s fun fn s =>
  if fn ≠ code then finish .badBuf {} s else
  issue (.shrink 8#16) s fun s => orCode .tooShort {} s fun s =>
  issue .crccheck s fun s => orCode .badBuf {} s fun s =>
  fetchWord16 2#16 s fun a s => fetchWord16 4#16 s fun v s => k a v s

/-- PARSE_WRITE_WORD (R198). -/
def parseWriteWord (s : State) : SeqResult :=
  parseEcho fnWriteWord s fun a v s => finish .ok { address := some a, value := some v } s

/-- PARSE_WRITE_WORDS (R199). -/
def parseWriteWords (s : State) : SeqResult :=
  parseEcho fnWriteWords s fun a v s => finish .ok { address := some a, actualCount := some v.toNat } s

/-! ### The transport's part of the host -/

/-- PUTB of each byte in turn, from `off` (R203). -/
def putBytes : List Byte → Nat → State → (State → SeqResult) → SeqResult
  | [], _, s, k => k s
  | b :: bs, off, s, k => issue (.putb (BitVec.ofNat 16 off) b) s fun s => putBytes bs (off + 1) s k

/-- Receiving `k` bytes (R203): "`PUTB i, byte_i` for i = 0 .. k-1 and then `SETLEN k`". R203 has `k <= CAP` and gives no
outcome; here it is that of the SETLEN (DESIGN CHOICE, unsafe for a claim about this outcome: notes/assumptions 19). -/
def receive (bytes : List Byte) (s : State) : SeqResult :=
  putBytes bytes 0 s fun s =>
  issue (.setlen (BitVec.ofNat 16 bytes.length)) s fun s =>
  fetchReg .status s fun st s => .next ⟨st.setWidth 8, {}, s⟩

/-- GETB of `n` bytes in turn, from `off`. -/
def getBytes : Nat → Nat → State → (List Byte → State → SeqResult) → SeqResult
  | 0, _, s, k => k [] s
  | n + 1, off, s, k =>
    fetchByte (BitVec.ofNat 16 off) s fun b s => getBytes n (off + 1) s fun bs s => k (b :: bs) s

/-- Transmitting the message (R178): "the host reads `MSG[0 .. LEN-1]` with GETB and sends it". The spec gives this step no
outcome; here it is always `E_OK`, without a message too, where `LEN` is 0 and no byte is read (DESIGN CHOICE, unsafe for a
claim about this outcome: notes/assumptions 19). -/
def transmit (s : State) : SeqResult :=
  fetchReg .len s fun l s => getBytes l.toNat 0 s fun bs s => finish .ok { bytes := bs } s

end Sys2Proof.Machine
end

