-- ==== Sys2Proof/Safety.lean ====
section
/-! DEFINITION. What a safe run is, and the terms the statements are made in: the invariant of the block, the commands
that need a message (10_state.md R23), the bytes a command stores to (R32), and which commands may write which register
(R32). -/

namespace Sys2Proof.Machine

/-- The invariant: "`LEN <= CAP`" (R24); without a message the length is 0 (R33, R171; DEDUCED,
notes/assumptions 14); `STATUS` is a code the block
produces (R221); the listed bytes are in canonical form and inside the buffer (R50). -/
structure State.Inv (s : State) : Prop where
  len_le_cap : s.len.toNat ≤ s.cap
  absent_len : s.present = false → s.len = 0x0000#16
  status_produced : s.status ∈ Code.produced.map Code.value
  msg_wf : Memory.wf s.cap s.msg

/-- Every run from `s`, of any length, goes on: no step stops with a fault or a refusal. -/
def Safe (s : State) : Prop := ∀ k, ∃ t : State, Host.Core.run Sys2Proof.core k s = .next t

/-- The commands that test `PRESENT`: "every command except MSGNEW, MSGDROP and RDREG" (R23). -/
def needsMessage : Instr → Bool
  | .msgnew | .msgdrop | .rdreg _ => false
  | .setlen _ | .shrink _ | .putb _ _ | .getb _ | .wrbe16 _ _ | .rdbe16 _ | .crcapply | .crccheck | .fpack _ _
  | .funpack _ => true

/-- The bytes a command stores to when it succeeds at `s`, as an offset and a count (R32, column MSG): MSGNEW apart, which
makes every byte unspecified. The offset is the one the command's meaning gives to `memWrite`. -/
def storeRange (i : Instr) (s : State) : Nat × Nat :=
  match i with
  | .putb off _ => (off.toNat, 1)
  | .wrbe16 off _ => (off.toNat, 2)
  | .fpack off _ => (off.toNat, 4)
  | .crcapply => (s.len.toNat - 2, 2)
  | .msgnew | .msgdrop | .setlen _ | .shrink _ | .getb _ | .rdreg _ | .rdbe16 _ | .crccheck | .funpack _ => (0, 0)

/-- An offset that a command stores to. -/
def storesTo (i : Instr) (s : State) (a : Nat) : Prop :=
  (storeRange i s).1 ≤ a ∧ a < (storeRange i s).1 + (storeRange i s).2

/-- The range-checked access of a command, as an offset and a count (R52, R223 column "E_INVAL (range)"); a count of 0
for a command without a range check. -/
def accessRange : Instr → Nat × Nat
  | .putb off _ | .getb off => (off.toNat, 1)
  | .wrbe16 off _ | .rdbe16 off => (off.toNat, 2)
  | .fpack off _ | .funpack off => (off.toNat, 4)
  | .msgnew | .msgdrop | .setlen _ | .shrink _ | .rdreg _ | .crcapply | .crccheck => (0, 0)

/-- Commands that may write `PRESENT` (R32). -/
def writesPresent : Instr → Bool
  | .msgnew | .msgdrop => true
  | .setlen _ | .shrink _ | .putb _ _ | .getb _ | .rdreg _ | .wrbe16 _ _ | .rdbe16 _ | .crcapply | .crccheck
  | .fpack _ _ | .funpack _ => false

/-- Commands that may write `LEN` (R24, R32). -/
def writesLen : Instr → Bool
  | .msgnew | .msgdrop | .setlen _ | .shrink _ => true
  | .putb _ _ | .getb _ | .rdreg _ | .wrbe16 _ _ | .rdbe16 _ | .crcapply | .crccheck | .fpack _ _ | .funpack _ => false

/-- Commands that may write `RES` (R26, R32). -/
def writesRes : Instr → Bool
  | .getb _ | .rdbe16 _ | .funpack _ => true
  | .msgnew | .msgdrop | .setlen _ | .shrink _ | .putb _ _ | .rdreg _ | .wrbe16 _ _ | .crcapply | .crccheck
  | .fpack _ _ => false

/-- Commands that may write `CRCR` (R27, R32). -/
def writesCrcr : Instr → Bool
  | .crcapply | .crccheck => true
  | .msgnew | .msgdrop | .setlen _ | .shrink _ | .putb _ _ | .getb _ | .rdreg _ | .wrbe16 _ _ | .rdbe16 _
  | .fpack _ _ | .funpack _ => false

/-- A legal RDREG, the one command that leaves `STATUS` as it is (R25, R177). -/
def isLegalRdreg : Instr → Bool
  | .rdreg idx => decide (idx.toNat ≤ 6)
  | .msgnew | .msgdrop | .setlen _ | .shrink _ | .putb _ _ | .getb _ | .wrbe16 _ _ | .rdbe16 _ | .crcapply
  | .crccheck | .fpack _ _ | .funpack _ => false

end Sys2Proof.Machine
end

