-- ==== Sys2Proof/Certificates/Slice0/Obligations.lean ====
section
/-! DEFINITION. The statements for the provers, from the numbered rules of spec/. A statement about one command gives its
next state as an equation, so that its frame is part of it: every register and every byte not named is unchanged. -/

open Sys2Proof Sys2Proof.Machine

/-! ### Encoding (30_encoding.md) -/

/-- R81, R84, R85, R91: no operand bit of a legal command is lost in its word. -/
def Obligations.DecodeOfEncodeIsTheCommand : Prop :=
  ∀ i : Instr, i.WellFormed = true → decode (encode i) = .ok i

/-- R82, R85, R91: a legal word has one meaning and is the encoding of it. -/
def Obligations.EncodeOfDecodeIsTheWord : Prop :=
  ∀ (w : CommandWord) (i : Instr), decode w = .ok i → encode i = w ∧ i.WellFormed = true

/-- R85: the decoding procedure, on every word. A word that matches a row is that row's command with the fields `A` and
`D`, unless it is an RDREG of an index above 6; a word that matches no row is illegal. -/
def Obligations.DecodeAcceptsExactlyTheTableRows : Prop :=
  ∀ w : CommandWord,
    (∀ row ∈ opcodeTable, w &&& row.mask = row.matchWord → (row.opc = 0xA6#8 → (aField w).toNat ≤ 6) →
      decode w = .ok (row.build (aField w) (dField w))) ∧
    (∀ row ∈ opcodeTable, w &&& row.mask = row.matchWord → row.opc = 0xA6#8 → 6 < (aField w).toNat →
      ∃ e, decode w = .error e) ∧
    ((∀ row ∈ opcodeTable, w &&& row.mask ≠ row.matchWord) → ∃ e, decode w = .error e)

/-- R91: "`W = (OPC << 56) | (A << 32) | D` with absent operands 0", and its worked examples. -/
def Obligations.EncodingIsTheFormulaOfTheSpec : Prop :=
  (∀ i : Instr, encode i =
    ((i.opcode.setWidth 64 <<< 56) ||| (i.operandA.setWidth 64 <<< 32) ||| i.operandD.setWidth 64 : CommandWord)) ∧
  encode .msgnew = 0xA000000000000000#64 ∧
  encode (.setlen 8#16) = 0xA200000800000000#64 ∧
  encode (.putb 1#16 0x06#8) = 0xA400000100000006#64 ∧
  encode (.wrbe16 2#16 0x1234#16) = 0xB000000200001234#64 ∧
  encode (.rdbe16 4#16) = 0xB100000400000000#64 ∧
  encode .crcapply = 0xC000000000000000#64 ∧
  encode (.fpack 3#16 0x3F800000#32) = 0xF00000033F800000#64 ∧
  encode (.rdreg Reg.status.index) = 0xA600000200000000#64

/-- R84, R88: a word written out from the table for each of the thirteen commands decodes to it, and words with a
must-be-zero bit set, an unassigned OPC or a register index above 6 are illegal (95_test_vectors.md V-E-1 to V-E-9,
V-B-13, V-P-11). -/
def Obligations.WrittenOutWordsDecode : Prop :=
  decode 0xA000000000000000#64 = .ok .msgnew ∧
  decode 0xA100000000000000#64 = .ok .msgdrop ∧
  decode 0xA200010100000000#64 = .ok (.setlen 257#16) ∧
  decode 0xA300000900000000#64 = .ok (.shrink 9#16) ∧
  decode 0xA400000100000006#64 = .ok (.putb 1#16 0x06#8) ∧
  decode 0xA500010000000000#64 = .ok (.getb 256#16) ∧
  decode 0xA600000600000000#64 = .ok (.rdreg 6#16) ∧
  decode 0xB000000200001234#64 = .ok (.wrbe16 2#16 0x1234#16) ∧
  decode 0xB100000400000000#64 = .ok (.rdbe16 4#16) ∧
  decode 0xC000000000000000#64 = .ok .crcapply ∧
  decode 0xC100000000000000#64 = .ok .crccheck ∧
  decode 0xF000FFFF3F800000#64 = .ok (.fpack 0xFFFF#16 0x3F800000#32) ∧
  decode 0xF100000300000000#64 = .ok (.funpack 3#16) ∧
  decode 0x0000000000000000#64 = .error (.unassignedOpcode 0x00#8) ∧
  decode 0xA001000000000000#64 = .error (.mustBeZeroBitSet 0xA001000000000000#64) ∧
  decode 0xA400000000000100#64 = .error (.mustBeZeroBitSet 0xA400000000000100#64) ∧
  decode 0xC000000000000001#64 = .error (.mustBeZeroBitSet 0xC000000000000001#64) ∧
  decode 0xA000000100000000#64 = .error (.mustBeZeroBitSet 0xA000000100000000#64) ∧
  decode 0x0300000000000000#64 = .error (.unassignedOpcode 0x03#8) ∧
  decode 0x0600000000000000#64 = .error (.unassignedOpcode 0x06#8) ∧
  decode 0x1000000000000000#64 = .error (.unassignedOpcode 0x10#8) ∧
  decode 0xF0FFFFFFFFFFFFFF#64 = .error (.mustBeZeroBitSet 0xF0FFFFFFFFFFFFFF#64) ∧
  decode 0xB000000200011234#64 = .error (.mustBeZeroBitSet 0xB000000200011234#64) ∧
  decode 0xA600000700000000#64 = .error (.noSuchRegister 7#16)

/-- R90, R91: for every row of the table, the operands of a line are encoded when each fits its field and rejected when
one does not. A row without operands; a one-operand row with a number; with a register name, accepted "only as the RDREG
operand, = 0..6"; a two-operand row with numbers (a decimal FPACK operand among them, notes/assumptions 17); with a
register name in either place. -/
def Obligations.AssemblerAcceptsExactlyTheOperandsThatFit : Prop :=
  ∀ row ∈ opcodeTable,
    (row.format = .Z → assembleRow row [] = .ok (row.opc.setWidth 64 <<< 56)) ∧
    (row.format = .A → ∀ a : Nat,
      (a < 65536 →
        assembleRow row [.number a] = .ok ((row.opc.setWidth 64 <<< 56) ||| (BitVec.ofNat 64 a <<< 32))) ∧
      (65536 ≤ a → ∃ e, assembleRow row [.number a] = .error e)) ∧
    (row.format = .A → ∀ r : Reg,
      (row.opc = 0xA6#8 → assembleRow row [.register r] = .ok (encode (.rdreg r.index))) ∧
      (row.opc ≠ 0xA6#8 → ∃ e, assembleRow row [.register r] = .error e)) ∧
    ∀ bits, Format.dataBits row.format = some bits →
      (∀ a d : Nat,
        (a < 65536 → d < 2 ^ bits →
          assembleRow row [.number a, .number d] =
            .ok ((row.opc.setWidth 64 <<< 56) ||| (BitVec.ofNat 64 a <<< 32) ||| BitVec.ofNat 64 d)) ∧
        (65536 ≤ a ∨ 2 ^ bits ≤ d → ∃ e, assembleRow row [.number a, .number d] = .error e)) ∧
      ∀ (r : Reg) (x : AsmOperand),
        (∃ e, assembleRow row [.register r, x] = .error e) ∧ ∃ e, assembleRow row [x, .register r] = .error e

/-! ### The step (00_scope.md R12, 30_encoding.md R88, 70_reset_and_hazards.md R251) -/

/-- R12, R85 (the host's steps are the list `pending`, notes/assumptions 5): a step on a legal command word executes the
command it decodes to; the host's other steps wait. -/
def Obligations.StepExecutesTheDecodedCommand : Prop :=
  ∀ (s : State) (w : CommandWord) (rest : List HostStep) (i : Instr),
    s.pending = .command w :: rest → decode w = .ok i → step s = exec i { s with pending := rest }

/-- R88: an illegal command word sets `STATUS` to `E_INVAL` and changes no other state, whatever `PRESENT` is; it returns
no value (R86). -/
def Obligations.IllegalWordChangesOnlyTheStatus : Prop :=
  ∀ (s : State) (w : CommandWord) (rest : List HostStep) (e : Illegal),
    s.pending = .command w :: rest → decode w = .error e →
    step s = .next { s with pending := rest, status := 0x07#8, out := none }

/-- R12: "The block is passive: it changes state only inside a host step." -/
def Obligations.BlockIsPassiveBetweenHostSteps : Prop := ∀ s : State, s.pending = [] → step s = .next s

/-- R251: a reset gives every register its reset value, makes every byte of `MSG` unspecified (the free byte of the next
draw, notes/assumptions 3 and 4) and leaves the parameters alone. It returns no value, and the host's other steps wait
(notes/assumptions 5 and 6). -/
def Obligations.ResetStepGivesTheResetValues : Prop :=
  ∀ (s : State) (rest : List HostStep), s.pending = .reset :: rest →
    ∃ t, step s = .next t ∧ t.present = false ∧ t.len = 0#16 ∧ t.status = 0x00#8 ∧ t.res = 0#32 ∧ t.crcr = 0xFFFF#16 ∧
      t.cfg = s.cfg ∧ t.out = none ∧ t.pending = rest ∧ t.draws = s.draws + 1 ∧
      ∀ a, readByte t a = Config.unspecifiedByte (s.draws + 1) a

/-- R33 (values the spec itself decides, notes/assumptions 16): the state after reset, register by register; `CSUM` then
reads 0xFFFF, and every byte of `MSG` is unspecified: the model's free byte, of whichever draw the state holds
(notes/assumptions 3). -/
def Obligations.ResetStateHoldsTheResetValues : Prop :=
  State.reset.present = false ∧ State.reset.len = 0#16 ∧ State.reset.status = 0x00#8 ∧ State.reset.res = 0#32 ∧
  State.reset.crcr = 0xFFFF#16 ∧ readReg State.reset .csum = 0x0000FFFF#32 ∧
  ∀ a, readByte State.reset a = Config.unspecifiedByte State.reset.draws a

/-! ### The invariant and safety -/

/-- R24, R33, R221: the state after reset meets the invariant. -/
def Obligations.ResetMeetsTheInvariant : Prop := State.reset.Inv

/-- R24, R50, R221: from every state that meets the invariant, a step gives one that meets it: `LEN <= CAP`, no length
without a message (notes/assumptions 14), `STATUS` a code the block produces, the message bytes in canonical form inside the buffer. -/
def Obligations.EveryStepKeepsTheInvariant : Prop := ∀ s t : State, s.Inv → step s = .next t → t.Inv

/-- R12, R228: "The block never enters a state in which it refuses commands". From every state that meets the invariant,
whatever the host issues, no step of any run stops. -/
def Obligations.EveryRunIsSafe : Prop := ∀ s : State, s.Inv → Safe s

/-- R31, R6: "The capacity is fixed for the life of the block". No step, a reset among them, changes the configuration. -/
def Obligations.NoStepChangesTheCapacity : Prop :=
  ∀ s t : State, step s = .next t → t.cfg = s.cfg ∧ readReg t .capr = readReg s .capr

/-! ### Whole-machine rules -/

/-- R32, R30, R57: which command writes which state. A command changes a register only where the table names it, a byte
of `MSG` only where it stores to it (MSGNEW apart), and never the configuration or the host's waiting steps. -/
def Obligations.CommandsWriteOnlyWhatTheTableLists : Prop :=
  ∀ (i : Instr) (s t : State), exec i s = .next t →
    (writesPresent i = false → t.present = s.present) ∧
    (writesLen i = false → t.len = s.len) ∧
    (writesRes i = false → t.res = s.res) ∧
    (writesCrcr i = false → t.crcr = s.crcr) ∧
    (isLegalRdreg i = true → t.status = s.status) ∧
    (i ≠ .msgnew → ∀ a, ¬ storesTo i s a → readByte t a = readByte s a) ∧
    (i ≠ .msgnew → t.draws = s.draws) ∧
    t.cfg = s.cfg ∧ t.pending = s.pending

/-- R30, R59: "A byte keeps its value from the command that last wrote it ... until the next write to it, the next MSGNEW
or reset". Over a step: a byte that changed was stored to, or the step was a MSGNEW or a reset. -/
def Obligations.ByteChangesOnlyByStoreMsgnewOrReset : Prop :=
  ∀ (s t : State) (a : Nat), step s = .next t → readByte t a ≠ readByte s a →
    (∃ rest, s.pending = .reset :: rest) ∨
    ∃ w rest i, s.pending = .command w :: rest ∧ decode w = .ok i ∧
      (i = .msgnew ∨ storesTo i { s with pending := rest } a)

/-- R220, R224: a command that reports a fault has changed nothing but `STATUS`, but for `RES` in the two absent reads
(R113, R153) and `CRCR` for `E_BADBUF` (R129). -/
def Obligations.FaultChangesOnlyTheStatus : Prop :=
  ∀ (i : Instr) (s t : State), exec i s = .next t → isLegalRdreg i = false → t.status ≠ 0x00#8 →
    t = { s with status := t.status, res := t.res, crcr := t.crcr, out := none } ∧
    (t.res ≠ s.res → s.present = false ∧ ∃ off, i = .rdbe16 off ∨ i = .funpack off) ∧
    (t.crcr ≠ s.crcr → i = .crccheck ∧ t.status = 0x04#8)

/-- R25, R86, R221: every command but a legal RDREG writes `STATUS`, with a code the block produces (bit 7 clear: no
device-reported fault), and returns no value. -/
def Obligations.EveryOtherCommandWritesAProducedStatus : Prop :=
  ∀ (i : Instr) (s t : State), exec i s = .next t → isLegalRdreg i = false →
    t.status ∈ [0x00#8, 0x01#8, 0x02#8, 0x04#8, 0x06#8, 0x07#8] ∧ t.status.getLsbD 7 = false ∧ t.out = none

/-- R225 (steps 2 and 3), R223: with no message, the outcome is `E_NOBUF` whatever the operands are, out of range or too
long among them; RDBE16 then gives 0 (R112), FUNPACK the NaN sentinel (R154), and nothing else changes. -/
def Obligations.AbsentMessageIsReportedBeforeTheOperands : Prop :=
  ∀ (i : Instr) (s : State), needsMessage i = true → s.present = false →
    ∃ r, exec i s = .next { s with status := 0x01#8, res := r, out := none } ∧
      (∀ off, i = .rdbe16 off → r = 0#32) ∧
      (∀ off, i = .funpack off → r = Config.nanSentinel) ∧
      ((∀ off, i ≠ .rdbe16 off ∧ i ≠ .funpack off) → r = s.res)

/-- R52, R223: a byte, word or float access of `n` bytes at `off` is in range exactly when `off + n <= CAP`, without
wrap-around and whatever `LEN` is; out of range it is `E_INVAL` and nothing is accessed, in range the command succeeds. -/
def Obligations.RangeCheckIsAgainstTheCapacity : Prop :=
  ∀ (i : Instr) (s : State), 0 < (accessRange i).2 → s.present = true →
    (s.cap < (accessRange i).1 + (accessRange i).2 → exec i s = .next { s with status := 0x07#8, out := none }) ∧
    ((accessRange i).1 + (accessRange i).2 ≤ s.cap → ∃ t, exec i s = .next t ∧ t.status = 0x00#8)

/-- R10, R24: the one stop of the model. A command stops exactly where it is CRCAPPLY or CRCCHECK of a message longer
than the buffer, which R24 rules out, and then with the fault `outsideMsg` (notes/assumptions 12). -/
def Obligations.CommandsStopOnlyOnALengthBeyondTheCapacity : Prop :=
  ∀ (i : Instr) (s : State),
    ((∃ off n, exec i s = .fault (.outsideMsg off n)) ↔
      (i = .crcapply ∨ i = .crccheck) ∧ s.present = true ∧ s.cap < s.len.toNat ∧ 2 ≤ s.len.toNat) ∧
    ((∀ off n, exec i s ≠ .fault (.outsideMsg off n)) → ∃ t, exec i s = .next t)

/-- R30, R171: without a message no command but MSGNEW can read `MSG`: its outcome and every register after it are the
same whatever the bytes of the message are. -/
def Obligations.DroppedMessageCannotBeRead : Prop :=
  ∀ (i : Instr) (s : State) (m : Memory) (d : Nat), i ≠ .msgnew → s.present = false →
    ∃ t, exec i s = .next t ∧ exec i { s with msg := m, draws := d } = .next { t with msg := m, draws := d }

/-- R172: SETLEN "is the only command that can make it larger" (`LEN`). -/
def Obligations.LengthGrowsOnlyBySetlen : Prop :=
  ∀ (i : Instr) (s t : State), exec i s = .next t → s.len.toNat < t.len.toNat → ∃ n, i = .setlen n ∧ t.len = n

/-! ### Buffer control (44_buffer_control.md) -/

/-- R170: MSGNEW gives a present message of length 0 with every byte unspecified (the free byte of the next draw,
notes/assumptions 3 and 4), outcome `E_OK`; `RES` and `CRCR` are unchanged. -/
def Obligations.MsgnewStartsAFreshMessage : Prop :=
  ∀ s : State, ∃ t, exec .msgnew s = .next t ∧
    t = { s with present := true, len := 0#16, status := 0x00#8, out := none, msg := t.msg, draws := s.draws + 1 } ∧
    ∀ a, readByte t a = Config.unspecifiedByte (s.draws + 1) a

/-- R171: MSGDROP gives no message and length 0, outcome `E_OK`; `MSG`, `RES` and `CRCR` are unchanged. -/
def Obligations.MsgdropDiscardsTheMessage : Prop :=
  ∀ s : State, exec .msgdrop s = .next { s with present := false, len := 0#16, status := 0x00#8, out := none }

/-- R172: SETLEN, in every case. -/
def Obligations.SetlenSetsTheLengthWithinCapacity : Prop :=
  ∀ (n : Word16) (s : State),
    (s.present = false → exec (.setlen n) s = .next { s with status := 0x01#8, out := none }) ∧
    (s.present = true → s.cap < n.toNat → exec (.setlen n) s = .next { s with status := 0x02#8, out := none }) ∧
    (s.present = true → n.toNat ≤ s.cap → exec (.setlen n) s = .next { s with len := n, status := 0x00#8, out := none })

/-- R173: SHRINK, in every case. -/
def Obligations.ShrinkOnlyLowersTheLength : Prop :=
  ∀ (n : Word16) (s : State),
    (s.present = false → exec (.shrink n) s = .next { s with status := 0x01#8, out := none }) ∧
    (s.present = true → s.len.toNat < n.toNat → exec (.shrink n) s = .next { s with status := 0x06#8, out := none }) ∧
    (s.present = true → n.toNat ≤ s.len.toNat →
      exec (.shrink n) s = .next { s with len := n, status := 0x00#8, out := none })

/-- R174: PUTB, in every case; `LEN` is unchanged and so is every other byte. -/
def Obligations.PutbStoresOneByte : Prop :=
  ∀ (off : Word16) (b : Byte) (s : State),
    (s.present = false → exec (.putb off b) s = .next { s with status := 0x01#8, out := none }) ∧
    (s.present = true → s.cap < off.toNat + 1 → exec (.putb off b) s = .next { s with status := 0x07#8, out := none }) ∧
    (s.present = true → off.toNat + 1 ≤ s.cap →
      ∃ t, exec (.putb off b) s = .next t ∧ t = { s with msg := t.msg, status := 0x00#8, out := none } ∧
        readByte t off.toNat = b ∧ ∀ a, a ≠ off.toNat → readByte t a = readByte s a)

/-- R175: GETB, in every case; without a message `RES` is unchanged. -/
def Obligations.GetbLoadsOneByte : Prop :=
  ∀ (off : Word16) (s : State),
    (s.present = false → exec (.getb off) s = .next { s with status := 0x01#8, out := none }) ∧
    (s.present = true → s.cap < off.toNat + 1 → exec (.getb off) s = .next { s with status := 0x07#8, out := none }) ∧
    (s.present = true → off.toNat + 1 ≤ s.cap →
      exec (.getb off) s =
        .next { s with res := (readByte s off.toNat).setWidth 32, status := 0x00#8, out := none })

/-- R176, R177: RDREG returns the register of the index and changes no state. An index above 6, a term that the decoder
never makes, is executed as the illegal command word it would be (notes/assumptions 9). -/
def Obligations.RdregReturnsTheRegister : Prop :=
  ∀ s : State,
    exec (.rdreg 0#16) s = .next { s with out := some (if s.present then 1#32 else 0#32) } ∧
    exec (.rdreg 1#16) s = .next { s with out := some (s.len.setWidth 32) } ∧
    exec (.rdreg 2#16) s = .next { s with out := some (s.status.setWidth 32) } ∧
    exec (.rdreg 3#16) s = .next { s with out := some s.res } ∧
    exec (.rdreg 4#16) s = .next { s with out := some (s.crcr.setWidth 32) } ∧
    exec (.rdreg 5#16) s =
      .next { s with out := some ((s.crcr.extractLsb' 0 8 ++ s.crcr.extractLsb' 8 8 : Word16).setWidth 32) } ∧
    exec (.rdreg 6#16) s = .next { s with out := some (BitVec.ofNat 32 s.cap) } ∧
    ∀ idx : Word16, 6 < idx.toNat → exec (.rdreg idx) s = .next { s with status := 0x07#8, out := none }

/-! ### Byte packing (41_byte_packing.md) -/

/-- R110: the big-endian encoder and decoder are inverse bijections. -/
def Obligations.BigEndianCodecIsABijection : Prop :=
  (∀ v : Word16, be16Enc v = [v.extractLsb' 8 8, v.extractLsb' 0 8]) ∧
  (∀ v : Word16, be16DecList (be16Enc v) = v) ∧
  (∀ b0 b1 : Byte, be16Dec b0 b1 = ((b0.setWidth 16 <<< 8) ||| b1.setWidth 16 : Word16)) ∧
  ∀ b0 b1 : Byte, be16Enc (be16Dec b0 b1) = [b0, b1]

/-- R111: WRBE16, in every case: no partial write on a fault, the high byte at the lower offset on success. -/
def Obligations.Wrbe16StoresBigEndian : Prop :=
  ∀ (off v : Word16) (s : State),
    (s.present = false → exec (.wrbe16 off v) s = .next { s with status := 0x01#8, out := none }) ∧
    (s.present = true → s.cap < off.toNat + 2 → exec (.wrbe16 off v) s = .next { s with status := 0x07#8, out := none }) ∧
    (s.present = true → off.toNat + 2 ≤ s.cap →
      ∃ t, exec (.wrbe16 off v) s = .next t ∧ t = { s with msg := t.msg, status := 0x00#8, out := none } ∧
        readByte t off.toNat = v.extractLsb' 8 8 ∧ readByte t (off.toNat + 1) = v.extractLsb' 0 8 ∧
        ∀ a, a ≠ off.toNat → a ≠ off.toNat + 1 → readByte t a = readByte s a)

/-- R112, R113: RDBE16, in every case: without a message `RES` is 0 and `STATUS` `E_NOBUF`. -/
def Obligations.Rdbe16LoadsBigEndian : Prop :=
  ∀ (off : Word16) (s : State),
    (s.present = false → exec (.rdbe16 off) s = .next { s with res := 0#32, status := 0x01#8, out := none }) ∧
    (s.present = true → s.cap < off.toNat + 2 → exec (.rdbe16 off) s = .next { s with status := 0x07#8, out := none }) ∧
    (s.present = true → off.toNat + 2 ≤ s.cap →
      exec (.rdbe16 off) s =
        .next { s with
          res := ((readByte s off.toNat ++ readByte s (off.toNat + 1) : Word16).setWidth 32), status := 0x00#8,
          out := none })

/-! ### Checksum engine (42_checksum.md) -/

/-- R127, R126: CRCAPPLY, in every case. With `r` the register after the covered region, `CRCR = r`,
`MSG[LEN-2] = r[7:0]`, `MSG[LEN-1] = r[15:8]`; `LEN` and `RES` are unchanged and so is every other byte.
With `LEN > CAP`, which no run reaches, the model stops (notes/assumptions 12). -/
def Obligations.CrcapplyStoresTheChecksum : Prop :=
  ∀ s : State,
    (s.present = false → exec .crcapply s = .next { s with status := 0x01#8, out := none }) ∧
    (s.present = true → s.len.toNat < 2 → exec .crcapply s = .next { s with status := 0x06#8, out := none }) ∧
    (s.present = true → 2 ≤ s.len.toNat → s.len.toNat ≤ s.cap →
      ∃ t r, exec .crcapply s = .next t ∧ r = crc16 (readBytes s 0 (s.len.toNat - 2)) ∧
        t = { s with crcr := r, msg := t.msg, status := 0x00#8, out := none } ∧
        readByte t (s.len.toNat - 2) = r.extractLsb' 0 8 ∧ readByte t (s.len.toNat - 1) = r.extractLsb' 8 8 ∧
        ∀ a, a ≠ s.len.toNat - 2 → a ≠ s.len.toNat - 1 → readByte t a = readByte s a) ∧
    (s.present = true → s.cap < s.len.toNat → ∃ off n, exec .crcapply s = .fault (.outsideMsg off n))

/-- R128, R129: CRCCHECK, in every case. `CRCR` is the recomputed register whether or not the message verifies, and it
verifies exactly when its last two bytes are `r[7:0]` and `r[15:8]`; nothing else changes. With `LEN > CAP`, which no run
reaches, the model stops (notes/assumptions 12). -/
def Obligations.CrccheckVerifiesTheChecksum : Prop :=
  ∀ s : State,
    (s.present = false → exec .crccheck s = .next { s with status := 0x01#8, out := none }) ∧
    (s.present = true → s.len.toNat < 2 → exec .crccheck s = .next { s with status := 0x06#8, out := none }) ∧
    (s.present = true → 2 ≤ s.len.toNat → s.len.toNat ≤ s.cap →
      ∀ r, r = crc16 (readBytes s 0 (s.len.toNat - 2)) →
        (readByte s (s.len.toNat - 2) = r.extractLsb' 0 8 ∧ readByte s (s.len.toNat - 1) = r.extractLsb' 8 8 →
          exec .crccheck s = .next { s with crcr := r, status := 0x00#8, out := none }) ∧
        (¬ (readByte s (s.len.toNat - 2) = r.extractLsb' 0 8 ∧ readByte s (s.len.toNat - 1) = r.extractLsb' 8 8) →
          exec .crccheck s = .next { s with crcr := r, status := 0x04#8, out := none })) ∧
    (s.present = true → s.cap < s.len.toNat → ∃ off n, exec .crccheck s = .fault (.outsideMsg off n))

/-- R121, R122, R124: the register after a list of bytes: 0xFFFF for none; a byte is exclusive-ored into the low byte, and
each of the eight bit steps shifts right by one and exclusive-ors 0xA001 if the bit shifted out was set. -/
def Obligations.CrcFoldsTheByteStep : Prop :=
  crc16 [] = 0xFFFF#16 ∧
  (∀ (bs : List Byte) (b : Byte), crc16 (bs ++ [b]) = crcByte (crc16 bs) b) ∧
  (∀ (r : Word16) (b : Byte), crcByte r b =
    crcBit (crcBit (crcBit (crcBit (crcBit (crcBit (crcBit (crcBit (r ^^^ b.setWidth 16))))))))) ∧
  ∀ r : Word16, (crcBit r).getLsbD 15 = r.getLsbD 0 ∧
    (r.getLsbD 0 = false → crcBit r = r >>> 1) ∧ (r.getLsbD 0 = true → crcBit r = (r >>> 1) ^^^ 0xA001#16)

/-- R130 item 1: "for any message body, appending its computed checksum and then verifying it always succeeds":
`SETLEN n; CRCAPPLY; CRCCHECK` ends with `E_OK`. -/
def Obligations.AppliedChecksumAlwaysVerifies : Prop :=
  ∀ (s : State) (n : Word16), s.present = true → 2 ≤ n.toNat → n.toNat ≤ s.cap →
    ∃ t u v, exec (.setlen n) s = .next t ∧ exec .crcapply t = .next u ∧ exec .crccheck u = .next v ∧
      v.status = 0x00#8 ∧ v.crcr = u.crcr ∧ ∀ a, readByte v a = readByte u a

/-- R130 item 2: "flipping any single bit in the covered region must make verification fail". After CRCAPPLY, storing
one byte of the covered region with one bit changed makes CRCCHECK end with `E_BADBUF`. -/
def Obligations.SingleBitFlipNeverVerifies : Prop :=
  ∀ (s : State) (i : Word16) (k : Nat), s.present = true → 2 ≤ s.len.toNat → s.len.toNat ≤ s.cap →
    i.toNat < s.len.toNat - 2 → k < 8 →
    ∃ t u v, exec .crcapply s = .next t ∧
      exec (.putb i (readByte t i.toNat ^^^ (1#8 <<< k))) t = .next u ∧
      exec .crccheck u = .next v ∧ v.status = 0x04#8

/-- R129: "bytes at and beyond `LEN` are ignored". Two states that agree on `PRESENT`, `LEN`, `CAP`, `CRCR` and the bytes
below `LEN` verify alike. -/
def Obligations.VerificationIgnoresBytesBeyondTheLength : Prop :=
  ∀ s s' t : State, s'.present = s.present → s'.len = s.len → s'.cfg = s.cfg → s'.crcr = s.crcr →
    (∀ a, a < s.len.toNat → readByte s' a = readByte s a) → exec .crccheck s = .next t →
    ∃ t', exec .crccheck s' = .next t' ∧ t'.status = t.status ∧ t'.crcr = t.crcr

/-! ### Float codec (43_float_codec.md) -/

/-- R146, R144, R145: FPACK, in every case. A normal operand is stored as `[f[15:8], f[7:0], f[31:24], f[23:16]]`; an
operand whose exponent field is 0x00 or 0xFF as `FPACK_NONNORMAL(f)`, whatever that parameter is; every other byte and
register is unchanged. -/
def Obligations.FpackStoresThePackedFloat : Prop :=
  ∀ (off : Word16) (f : Word32) (s : State),
    (s.present = false → exec (.fpack off f) s = .next { s with status := 0x01#8, out := none }) ∧
    (s.present = true → s.cap < off.toNat + 4 → exec (.fpack off f) s = .next { s with status := 0x07#8, out := none }) ∧
    (s.present = true → off.toNat + 4 ≤ s.cap →
      ∃ t, exec (.fpack off f) s = .next t ∧ t = { s with msg := t.msg, status := 0x00#8, out := none } ∧
        (1 ≤ (f.extractLsb' 23 8).toNat → (f.extractLsb' 23 8).toNat ≤ 254 →
          readBytes t off.toNat 4 = [f.extractLsb' 8 8, f.extractLsb' 0 8, f.extractLsb' 24 8, f.extractLsb' 16 8]) ∧
        (f.extractLsb' 23 8 = 0x00#8 ∨ f.extractLsb' 23 8 = 0xFF#8 →
          readBytes t off.toNat 4 = packedBytes (Config.fpackNonnormal f)) ∧
        ∀ a, a < off.toNat ∨ off.toNat + 4 ≤ a → readByte t a = readByte s a)

/-- R153, R152, R154: FUNPACK, in every case; `be` and `m` are those of R150 (`packedExp`, `packedMantissa`) of the four
bytes at `off`. Without a message `RES` is the NaN sentinel; the classes the source leaves open give `FUNPACK_NONEXACT`,
whatever that parameter is. -/
def Obligations.FunpackDecodesThePackedFloat : Prop :=
  ∀ (off : Word16) (s : State),
    (s.present = false →
      exec (.funpack off) s = .next { s with res := Config.nanSentinel, status := 0x01#8, out := none }) ∧
    (s.present = true → s.cap < off.toNat + 4 → exec (.funpack off) s = .next { s with status := 0x07#8, out := none }) ∧
    (s.present = true → off.toNat + 4 ≤ s.cap →
      ∃ g b0 b1 b2 b3, readBytes s off.toNat 4 = [b0, b1, b2, b3] ∧
        exec (.funpack off) s = .next { s with res := g, status := 0x00#8, out := none } ∧
        (1 ≤ packedExp ⟨b0, b1, b2, b3⟩ → packedExp ⟨b0, b1, b2, b3⟩ ≤ 254 → g = b2 ++ b3 ++ b0 ++ b1) ∧
        (packedExp ⟨b0, b1, b2, b3⟩ = 0 → packedMantissa ⟨b0, b1, b2, b3⟩ % 2 = 0 →
          g.toNat = (if b2.getLsbD 7 then 2 ^ 31 else 0) + packedMantissa ⟨b0, b1, b2, b3⟩ / 2) ∧
        (packedExp ⟨b0, b1, b2, b3⟩ = 0 → packedMantissa ⟨b0, b1, b2, b3⟩ % 2 = 1 →
          g = Config.funpackNonexact ⟨b0, b1, b2, b3⟩) ∧
        (packedExp ⟨b0, b1, b2, b3⟩ = 255 → g = Config.funpackNonexact ⟨b0, b1, b2, b3⟩))

/-- R154, R6, R153: FUNPACK without a message gives a NaN pattern, whatever the parameter `NAN_SENTINEL` is; with a
message and `1 <= be <= 254` its result is "never a NaN, an infinity, a zero or a subnormal". -/
def Obligations.FunpackGivesANaNWhenAbsentAndANormalForBe1To254 : Prop :=
  ∀ (off : Word16) (s : State),
    (s.present = false → ∃ t, exec (.funpack off) s = .next t ∧ isNaN t.res = true) ∧
    (s.present = true → off.toNat + 4 ≤ s.cap →
      1 ≤ packedExp (packedAt s off.toNat) → packedExp (packedAt s off.toNat) ≤ 254 →
      ∃ t, exec (.funpack off) s = .next t ∧ isNormal t.res = true)

/-- R155 (a): for every normal `f`, FPACK followed by FUNPACK leaves `RES = f`, bit for bit. -/
def Obligations.FloatRoundTripIsExact : Prop :=
  ∀ (off : Word16) (f : Word32) (s : State), s.present = true → off.toNat + 4 ≤ s.cap → isNormal f = true →
    ∃ t u, exec (.fpack off f) s = .next t ∧ exec (.funpack off) t = .next u ∧ u.res = f ∧ u.status = 0x00#8

/-- R155 (b): for every 4 bytes with `1 <= be <= 254`, FUNPACK then FPACK of `RES` at the same offset rewrites the same
bytes. -/
def Obligations.PackedRoundTripRewritesTheSameBytes : Prop :=
  ∀ (off : Word16) (s : State), s.present = true → off.toNat + 4 ≤ s.cap →
    1 ≤ packedExp (packedAt s off.toNat) → packedExp (packedAt s off.toNat) ≤ 254 →
    ∃ t u, exec (.funpack off) s = .next t ∧ exec (.fpack off t.res) t = .next u ∧
      ∀ a, readByte u a = readByte s a

/-- R141, R142, R144: what FPACK stores for a normal operand is what the source's steps give for the number it denotes:
whenever `|val| = fm x 2^e` with `fm` in [0.5, 1), the biased exponent `e + 126` is in 0 .. 255 and the bytes are those of
R142 for the sign of `val` and `m = floor(fm x 2^24)`. What a pattern denotes is `floatValue` (notes/assumptions 8). -/
def Obligations.FpackFollowsTheSourceEncoding : Prop :=
  ∀ (f : Word32) (val fm : ℚ) (e : ℤ), isNormal f = true → floatValue f = some val →
    1 / 2 ≤ fm → fm < 1 → |val| = fm * 2 ^ e →
    0 ≤ e + 126 ∧ e + 126 ≤ 255 ∧ 2 ^ 23 ≤ ⌊fm * 2 ^ 24⌋ ∧ ⌊fm * 2 ^ 24⌋ < 2 ^ 24 ∧
    pack f = packFormula (decide (val < 0)) (e + 126).toNat ⌊fm * 2 ^ 24⌋.toNat

/-- R151, R152: in the classes the rules settle, FUNPACK's result is a pattern of exactly the number
`± m x 2^(be - 150)`: no rounding. What a pattern denotes is `floatValue` (binary32, notes/assumptions 8). -/
def Obligations.FunpackResultIsTheExactValue : Prop :=
  ∀ (off : Word16) (s : State), s.present = true → off.toNat + 4 ≤ s.cap →
    (1 ≤ packedExp (packedAt s off.toNat) ∧ packedExp (packedAt s off.toNat) ≤ 254 ∨
      packedExp (packedAt s off.toNat) = 0 ∧ packedMantissa (packedAt s off.toNat) % 2 = 0) →
    ∃ t, exec (.funpack off) s = .next t ∧ floatValue t.res = some (packedValue (packedAt s off.toNat))

/-- R54: bytes stored at one width are read back at others: a WRBE16, at every offset it may have, by two GETBs and by an
RDBE16, and the packed float of a normal operand, at every offset it may have, by two RDBE16s, its halves exchanged
(R144). -/
def Obligations.MixedWidthReadsSeeTheStoredBytes : Prop :=
  ∀ (off : Word16) (s : State), s.present = true →
    (off.toNat + 2 ≤ s.cap → ∀ v : Word16, ∃ t u0 u1 u2, exec (.wrbe16 off v) s = .next t ∧
      exec (.getb off) t = .next u0 ∧ u0.res = (v.extractLsb' 8 8).setWidth 32 ∧
      exec (.getb (off + 1#16)) t = .next u1 ∧ u1.res = (v.extractLsb' 0 8).setWidth 32 ∧
      exec (.rdbe16 off) t = .next u2 ∧ u2.res = v.setWidth 32) ∧
    (off.toNat + 4 ≤ s.cap → ∀ f : Word32, isNormal f = true → ∃ t u0 u1, exec (.fpack off f) s = .next t ∧
      exec (.rdbe16 off) t = .next u0 ∧ u0.res = (f.extractLsb' 0 16).setWidth 32 ∧
      exec (.rdbe16 (off + 2#16)) t = .next u1 ∧ u1.res = (f.extractLsb' 16 16).setWidth 32)

/-! ### Host sequences (45_host_sequences.md) -/

/-- R192: BUILD_READ_WORDS, in every case: the outcomes, and the 8-byte frame with its checksum. -/
def Obligations.BuildReadWordsMakesTheFrame : Prop :=
  ∀ (p : HostParams) (addr count : Word16) (s : State),
    (s.present = false → ∃ e, buildReadWords p addr count s = .next e ∧ e.outcome = 0x01#8) ∧
    (s.present = true → 80 < count.toNat → ∃ e, buildReadWords p addr count s = .next e ∧ e.outcome = 0x03#8 ∧
      e.state = { s with out := some 1#32 }) ∧
    (s.present = true → count.toNat ≤ 80 → s.cap < 8 →
      ∃ e, buildReadWords p addr count s = .next e ∧ e.outcome = 0x02#8) ∧
    (s.present = true → count.toNat ≤ 80 → 8 ≤ s.cap →
      ∃ e r, buildReadWords p addr count s = .next e ∧ e.outcome = 0x00#8 ∧ e.state.len = 8#16 ∧
        r = crc16 (readBytes e.state 0 6) ∧
        readBytes e.state 0 8 =
          [p.nodeId, p.fnReadReq, addr.extractLsb' 8 8, addr.extractLsb' 0 8, count.extractLsb' 8 8,
            count.extractLsb' 0 8, r.extractLsb' 0 8, r.extractLsb' 8 8])

/-- R193, R198 (95_test_vectors.md S1): for all addresses and values, building a write-word request and then parsing the
same frame as its echo succeeds and gives back the address and the value. -/
def Obligations.WriteWordRequestParsesAsItsEcho : Prop :=
  ∀ (p : HostParams) (addr value : Word16) (s : State), s.present = true → 8 ≤ s.cap →
    ∃ e e', buildWriteWord p addr value s = .next e ∧ e.outcome = 0x00#8 ∧ parseWriteWord e.state = .next e' ∧
      e'.outcome = 0x00#8 ∧ e'.outputs.address = some addr ∧ e'.outputs.value = some value

/-- R194: BUILD_WRITE_WORDS, in every case: no message, no values, more than 80 words (values absent is tested first), a
frame longer than the capacity, and the frame of `9 + 2n` bytes with each value big-endian from offset 7, which
verifies. `values` is a list of at least `count` words (R194, notes/assumptions 10). -/
def Obligations.BuildWriteWordsMakesTheFrame : Prop :=
  ∀ (p : HostParams) (addr count : Word16) (s : State),
    (s.present = false → ∀ vs, ∃ e, buildWriteWords p addr count vs s = .next e ∧ e.outcome = 0x01#8) ∧
    (s.present = true → ∃ e, buildWriteWords p addr count none s = .next e ∧ e.outcome = 0x07#8 ∧
      e.state = { s with out := some 1#32 }) ∧
    ∀ vs : List Word16, s.present = true → count.toNat ≤ vs.length →
      (80 < count.toNat → ∃ e, buildWriteWords p addr count (some vs) s = .next e ∧ e.outcome = 0x03#8 ∧
        e.state = { s with out := some 1#32 }) ∧
      (count.toNat ≤ 80 → s.cap < 9 + 2 * count.toNat →
        ∃ e, buildWriteWords p addr count (some vs) s = .next e ∧ e.outcome = 0x02#8) ∧
      (count.toNat ≤ 80 → 9 + 2 * count.toNat ≤ s.cap →
        ∃ e c, buildWriteWords p addr count (some vs) s = .next e ∧ e.outcome = 0x00#8 ∧
          e.state.len.toNat = 9 + 2 * count.toNat ∧
          readBytes e.state 0 7 =
            [p.nodeId, 0x10#8, addr.extractLsb' 8 8, addr.extractLsb' 0 8, count.extractLsb' 8 8,
              count.extractLsb' 0 8, BitVec.ofNat 8 (2 * count.toNat)] ∧
          (∀ i v, i < count.toNat → vs[i]? = some v →
            readByte e.state (7 + 2 * i) = v.extractLsb' 8 8 ∧ readByte e.state (8 + 2 * i) = v.extractLsb' 0 8) ∧
          checkChecksum e.state = .next c ∧ c.outcome = 0x00#8)

/-- R196, R229: DECODE_FUNCTION of no message, and of one within the capacity; a device error report gives `dc | 0x80`.
That `fn` is written before a missing third byte gives MessageTooShort follows the order of R196, which is a reading of the
source (notes/assumptions 10). -/
def Obligations.DecodeFunctionReportsTheDevice : Prop :=
  ∀ s : State,
    (s.present = false → ∃ e, decodeFunction s = .next e ∧ e.outcome = 0x01#8 ∧ e.outputs = {}) ∧
    (s.present = true → s.len.toNat < 2 → ∃ e, decodeFunction s = .next e ∧ e.outcome = 0x06#8 ∧ e.outputs = {}) ∧
    (s.present = true → s.len.toNat ≤ s.cap → 2 ≤ s.len.toNat → (readByte s 1).getLsbD 7 = false →
      ∃ e, decodeFunction s = .next e ∧ e.outcome = 0x00#8 ∧ e.outputs = { fn := some (readByte s 1) }) ∧
    (s.present = true → s.len.toNat ≤ s.cap → s.len.toNat = 2 → (readByte s 1).getLsbD 7 = true →
      ∃ e, decodeFunction s = .next e ∧ e.outcome = 0x06#8 ∧ e.outputs = { fn := some (readByte s 1 &&& 0x7F#8) }) ∧
    (s.present = true → s.len.toNat ≤ s.cap → 3 ≤ s.len.toNat → (readByte s 1).getLsbD 7 = true →
      ∃ e, decodeFunction s = .next e ∧ e.outputs = { fn := some (readByte s 1 &&& 0x7F#8) } ∧
        ((readByte s 2).getLsbD 7 = true → e.outcome = 0x05#8) ∧
        ((readByte s 2).getLsbD 7 = false → e.outcome = readByte s 2 ||| 0x80#8))

/-- R197, R200: PARSE_READ_WORDS of a response that verifies over its own length `bc + 5`: an odd byte count is a malformed
buffer; else the first `min(requested, actual)` words are read, and more words than requested are reported by DataTooLong
beside the data. -/
def Obligations.ParseReadWordsReadsTheVerifiedWords : Prop :=
  ∀ (requested bc : Nat) (s : State), s.present = true → s.len.toNat ≤ s.cap → bc = (readByte s 2).toNat →
    bc + 5 ≤ s.len.toNat → (readByte s 1 = 0x03#8 ∨ readByte s 1 = 0x04#8) →
    (readByte s (bc + 3) = (crc16 (readBytes s 0 (bc + 3))).extractLsb' 0 8) →
    (readByte s (bc + 4) = (crc16 (readBytes s 0 (bc + 3))).extractLsb' 8 8) →
    ∃ e, parseReadWords requested s = .next e ∧ e.state.len.toNat = bc + 5 ∧
      (bc % 2 = 1 → e.outcome = 0x04#8 ∧ e.outputs = {}) ∧
      (bc % 2 = 0 →
        e.outputs = { actualCount := some (bc / 2),
                      values := (List.range (min requested (bc / 2))).map
                        (fun i => be16Dec (readByte s (3 + 2 * i)) (readByte s (4 + 2 * i))) } ∧
        (bc / 2 ≤ requested → e.outcome = 0x00#8) ∧
        (requested < bc / 2 → e.outcome = 0x03#8))

/-- R197: PARSE_READ_WORDS of every response within the capacity that fails before its words are read, with no output
written: no message;
fewer than two bytes; a device error report, whose outcome is DECODE_FUNCTION's (notes/assumptions 10); another function
code; no byte count; fewer bytes than `bc + 5`; a checksum that does not verify; one that verifies with an odd `bc`. -/
def Obligations.ParseReadWordsReportsWhatFails : Prop :=
  ∀ (requested : Nat) (s : State),
    (s.present = false → ∃ e, parseReadWords requested s = .next e ∧ e.outcome = 0x01#8 ∧ e.outputs = {}) ∧
    (s.present = true → s.len.toNat ≤ s.cap →
      (s.len.toNat < 2 → ∃ e, parseReadWords requested s = .next e ∧ e.outcome = 0x06#8 ∧ e.outputs = {}) ∧
      (2 ≤ s.len.toNat → (readByte s 1).getLsbD 7 = true →
        ∃ e d, decodeFunction s = .next d ∧ parseReadWords requested s = .next e ∧ e.outcome = d.outcome ∧
          d.outcome ≠ 0x00#8 ∧ e.outputs = {}) ∧
      (2 ≤ s.len.toNat → (readByte s 1).getLsbD 7 = false → readByte s 1 ≠ 0x03#8 → readByte s 1 ≠ 0x04#8 →
        ∃ e, parseReadWords requested s = .next e ∧ e.outcome = 0x04#8 ∧ e.outputs = {}) ∧
      (readByte s 1 = 0x03#8 ∨ readByte s 1 = 0x04#8 →
        (s.len.toNat = 2 → ∃ e, parseReadWords requested s = .next e ∧ e.outcome = 0x06#8 ∧ e.outputs = {}) ∧
        ∀ bc, bc = (readByte s 2).toNat → 3 ≤ s.len.toNat →
          (s.len.toNat < bc + 5 →
            ∃ e, parseReadWords requested s = .next e ∧ e.outcome = 0x06#8 ∧ e.outputs = {}) ∧
          (bc + 5 ≤ s.len.toNat →
            ¬ (readByte s (bc + 3) = (crc16 (readBytes s 0 (bc + 3))).extractLsb' 0 8 ∧
              readByte s (bc + 4) = (crc16 (readBytes s 0 (bc + 3))).extractLsb' 8 8) →
            ∃ e, parseReadWords requested s = .next e ∧ e.outcome = 0x04#8 ∧ e.outputs = {}) ∧
          (bc + 5 ≤ s.len.toNat →
            readByte s (bc + 3) = (crc16 (readBytes s 0 (bc + 3))).extractLsb' 0 8 →
            readByte s (bc + 4) = (crc16 (readBytes s 0 (bc + 3))).extractLsb' 8 8 → bc % 2 = 1 →
            ∃ e, parseReadWords requested s = .next e ∧ e.outcome = 0x04#8 ∧ e.outputs = {})))

/-- R203, R178: receiving at most `CAP` bytes puts them, in order, at the start of the message, sets the length to their
count, and leaves every other byte; transmitting then sends exactly them. R203 gives receiving no outcome: that it ends with
`E_OK` is the model's choice (notes/assumptions 19). -/
def Obligations.ReceivedBytesAreTransmittedBack : Prop :=
  ∀ (bytes : List Byte) (s : State), s.present = true → bytes.length ≤ s.cap →
    ∃ e e', receive bytes s = .next e ∧ e.outcome = 0x00#8 ∧ e.state.len.toNat = bytes.length ∧
      readBytes e.state 0 bytes.length = bytes ∧
      (∀ a, bytes.length ≤ a → readByte e.state a = readByte s a) ∧
      transmit e.state = .next e' ∧ e'.outputs.bytes = bytes
end

