-- ==== Sys2Proof/Laws/State.lean ====
section
/-! SUPPORT. One lemma per field per named update of the state, and of the values derived from it, so that no later proof
unfolds an update. -/

namespace Sys2Proof.Machine

@[simp] theorem State.cap_mk (present : Bool) (len : Word16) (status : Byte) (res : Word32) (crcr : Word16) (msg : Memory)
    (draws : Nat) (cfg : Config) (out : Option Word32) (pending : List HostStep) :
    (State.mk present len status res crcr msg draws cfg out pending).cap = cfg.cap := rfl

theorem State.cap_def (s : State) : s.cap = s.cfg.cap := rfl

theorem State.cap_pos (s : State) : 1 ≤ s.cap := s.cfg.cap_pos

theorem State.cap_le (s : State) : s.cap ≤ 65535 := s.cfg.cap_le

/-! ### State.reset -/

@[simp] theorem reset_present : State.reset.present = false := rfl
@[simp] theorem reset_len : State.reset.len = 0x0000#16 := rfl
@[simp] theorem reset_status : State.reset.status = 0x00#8 := rfl
@[simp] theorem reset_res : State.reset.res = 0x00000000#32 := rfl
@[simp] theorem reset_crcr : State.reset.crcr = 0xFFFF#16 := rfl
@[simp] theorem reset_msg : State.reset.msg = [] := rfl
@[simp] theorem reset_draws : State.reset.draws = 0 := rfl
@[simp] theorem reset_cfg : State.reset.cfg = Config.default := rfl
@[simp] theorem reset_out : State.reset.out = none := rfl
@[simp] theorem reset_pending : State.reset.pending = [] := rfl

/-! ### forgetMessage -/

variable (s : State)

@[simp] theorem forgetMessage_present : (forgetMessage s).present = s.present := rfl
@[simp] theorem forgetMessage_len : (forgetMessage s).len = s.len := rfl
@[simp] theorem forgetMessage_status : (forgetMessage s).status = s.status := rfl
@[simp] theorem forgetMessage_res : (forgetMessage s).res = s.res := rfl
@[simp] theorem forgetMessage_crcr : (forgetMessage s).crcr = s.crcr := rfl
@[simp] theorem forgetMessage_msg : (forgetMessage s).msg = [] := rfl
@[simp] theorem forgetMessage_draws : (forgetMessage s).draws = s.draws + 1 := rfl
@[simp] theorem forgetMessage_cfg : (forgetMessage s).cfg = s.cfg := rfl
@[simp] theorem forgetMessage_out : (forgetMessage s).out = s.out := rfl
@[simp] theorem forgetMessage_pending : (forgetMessage s).pending = s.pending := rfl

/-! ### hostReset -/

@[simp] theorem hostReset_present : (hostReset s).present = false := rfl
@[simp] theorem hostReset_len : (hostReset s).len = 0x0000#16 := rfl
@[simp] theorem hostReset_status : (hostReset s).status = 0x00#8 := rfl
@[simp] theorem hostReset_res : (hostReset s).res = 0x00000000#32 := rfl
@[simp] theorem hostReset_crcr : (hostReset s).crcr = 0xFFFF#16 := rfl
@[simp] theorem hostReset_msg : (hostReset s).msg = [] := rfl
@[simp] theorem hostReset_draws : (hostReset s).draws = s.draws + 1 := rfl
@[simp] theorem hostReset_cfg : (hostReset s).cfg = s.cfg := rfl
@[simp] theorem hostReset_out : (hostReset s).out = none := rfl
@[simp] theorem hostReset_pending : (hostReset s).pending = s.pending := rfl

end Sys2Proof.Machine
end

