-- ==== Sys2Proof/Laws/Memory.lean ====
section
/-! SUPPORT. The laws of the message buffer: a byte read after a write is the byte written, a write leaves every other
byte alone, every memory operation keeps the canonical form, and canonical memories with the same bytes are equal. -/

namespace Sys2Proof.Machine

/-! ### Read after write -/

theorem Memory.lookup_insert (m : Memory) (off a : Nat) (b : Byte) :
    (m.insert off b).lookup a = if off = a then some b else m.lookup a := by
  induction m with
  | nil => rfl
  | cons c m ih =>
    obtain ⟨x, y⟩ := c
    simp only [Memory.insert]
    split
    · rfl
    · split
      · subst_vars; simp only [Memory.lookup]; split <;> simp_all
      · simp only [Memory.lookup, ih]; split <;> split <;> simp_all

theorem Memory.lookup_insertAll (m : Memory) (off a : Nat) (bs : List Byte) :
    (m.insertAll off bs).lookup a =
      if off ≤ a ∧ a < off + bs.length then bs[a - off]? else m.lookup a := by
  induction bs generalizing m off with
  | nil => simp only [Memory.insertAll, List.length_nil]; split <;> first | omega | rfl
  | cons b bs ih =>
    simp only [Memory.insertAll, ih, Memory.lookup_insert, List.length_cons]
    by_cases h : off = a
    · subst h; simp
    · by_cases h' : off + 1 ≤ a ∧ a < off + 1 + bs.length
      · have : a - off = (a - (off + 1)) + 1 := by omega
        rw [if_pos h', if_pos (by omega), this, List.getElem?_cons_succ]
      · rw [if_neg h', if_neg h, if_neg (by omega)]

/-! ### The byte read of a state -/

theorem readByte_congr {s t : State} (hm : t.msg = s.msg) (hd : t.draws = s.draws) (a : Nat) :
    readByte t a = readByte s a := by
  simp only [readByte, unlistedByte, hm, hd]

theorem readBytes_congr {s t : State} {off n : Nat} (h : ∀ a, off ≤ a → a < off + n → readByte t a = readByte s a) :
    readBytes t off n = readBytes s off n := by
  refine List.map_congr_left fun k hk => ?_
  exact h _ (by omega) (by have := List.mem_range.1 hk; omega)

@[simp] theorem readBytes_length (s : State) (off n : Nat) : (readBytes s off n).length = n := by simp [readBytes]

theorem readBytes_getElem? (s : State) (off n k : Nat) (h : k < n) :
    (readBytes s off n)[k]? = some (readByte s (off + k)) := by simp [readBytes, h]

theorem readBytes_one (s : State) (off : Nat) : readBytes s off 1 = [readByte s off] := rfl

theorem readBytes_two (s : State) (off : Nat) : readBytes s off 2 = [readByte s off, readByte s (off + 1)] := rfl

theorem readBytes_four (s : State) (off : Nat) :
    readBytes s off 4 = [readByte s off, readByte s (off + 1), readByte s (off + 2), readByte s (off + 3)] := rfl

/-- With nothing listed, every byte is the free byte of the current draw (R30). -/
theorem readByte_nothing_listed {s : State} (h : s.msg = []) (a : Nat) :
    readByte s a = Config.unspecifiedByte s.draws a := by simp [readByte, h, Memory.lookup, unlistedByte]

/-- The bytes after a write: the bytes written, and every other byte as before (R10). -/
theorem readByte_insertAll {s t : State} {off : Nat} {bs : List Byte} (hm : t.msg = s.msg.insertAll off bs)
    (hd : t.draws = s.draws) (a : Nat) :
    readByte t a = if off ≤ a ∧ a < off + bs.length then (bs[a - off]?).getD 0x00#8 else readByte s a := by
  simp only [readByte, unlistedByte, hm, hd, Memory.lookup_insertAll]
  split
  · have : a - off < bs.length := by omega
    simp [this]
  · rfl

/-- A state with the bytes and the draw of `s` reads as `s` does. -/
@[simp] theorem readByte_mk (s : State) (present : Bool) (len : Word16) (status : Byte) (res : Word32) (crcr : Word16)
    (cfg : Config) (out : Option Word32) (pending : List HostStep) (a : Nat) :
    readByte ⟨present, len, status, res, crcr, s.msg, s.draws, cfg, out, pending⟩ a = readByte s a := rfl

/-- `readByte_insertAll`, for a state written out. -/
theorem readByte_mk_insertAll (s : State) (present : Bool) (len : Word16) (status : Byte) (res : Word32) (crcr : Word16)
    (cfg : Config) (out : Option Word32) (pending : List HostStep) (off : Nat) (bs : List Byte) (a : Nat) :
    readByte ⟨present, len, status, res, crcr, s.msg.insertAll off bs, s.draws, cfg, out, pending⟩ a =
      if off ≤ a ∧ a < off + bs.length then (bs[a - off]?).getD 0x00#8 else readByte s a :=
  readByte_insertAll (s := s)
    (t := ⟨present, len, status, res, crcr, s.msg.insertAll off bs, s.draws, cfg, out, pending⟩) rfl rfl a

/-! ### The canonical form -/

theorem Memory.wf_nil (cap : Nat) : Memory.wf cap [] := ⟨List.Pairwise.nil, by simp⟩

theorem Memory.mem_insert {m : Memory} {off : Nat} {b : Byte} {c : Host.Cell} (h : c ∈ m.insert off b) :
    c = (off, b) ∨ c ∈ m := by
  induction m with
  | nil => simpa [Memory.insert] using h
  | cons d m ih =>
    obtain ⟨x, y⟩ := d
    simp only [Memory.insert] at h
    split at h
    · simpa using h
    · split at h
      · rcases List.mem_cons.1 h with h | h
        · exact .inl h
        · exact .inr (List.mem_cons_of_mem _ h)
      · rcases List.mem_cons.1 h with h | h
        · exact .inr (h ▸ List.mem_cons_self)
        · exact (ih h).imp_right (List.mem_cons_of_mem _)

theorem Memory.wf_insert {cap : Nat} {m : Memory} {off : Nat} {b : Byte} (h : Memory.wf cap m) (ho : off < cap) :
    Memory.wf cap (m.insert off b) := by
  obtain ⟨hp, hb⟩ := h
  refine ⟨?_, fun c hc => ?_⟩
  · clear hb
    induction m with
    | nil => exact List.pairwise_singleton _ _
    | cons d m ih =>
      obtain ⟨x, y⟩ := d
      obtain ⟨hx, hm⟩ := List.pairwise_cons.1 hp
      simp only [Memory.insert]
      split
      · refine List.pairwise_cons.2 ⟨fun c hc => ?_, hp⟩
        rcases List.mem_cons.1 hc with rfl | hc
        · assumption
        · exact Nat.lt_trans ‹off < x› (hx c hc)
      · split
        · subst_vars; exact List.pairwise_cons.2 ⟨hx, hm⟩
        · refine List.pairwise_cons.2 ⟨fun c hc => ?_, ih hm⟩
          rcases Memory.mem_insert hc with rfl | hc
          · simp only; omega
          · exact hx c hc
  · rcases Memory.mem_insert hc with rfl | hc
    · exact ho
    · exact hb c hc

/-- A write inside the buffer keeps the canonical form. -/
theorem Memory.wf_insertAll {cap : Nat} {m : Memory} {off : Nat} {bs : List Byte} (h : Memory.wf cap m)
    (ho : off + bs.length ≤ cap) : Memory.wf cap (m.insertAll off bs) := by
  induction bs generalizing m off with
  | nil => exact h
  | cons b bs ih =>
    simp only [List.length_cons] at ho
    exact ih (Memory.wf_insert h (by omega)) (by omega)

theorem Memory.lookup_eq_none {m : Memory} {a : Nat} (h : ∀ c ∈ m, a < c.1) : m.lookup a = none := by
  induction m with
  | nil => rfl
  | cons c m ih =>
    have := h c List.mem_cons_self
    simp only [Memory.lookup]
    rw [if_neg (by omega)]
    exact ih fun d hd => h d (List.mem_cons_of_mem _ hd)

/-- Two canonical memories that list the same bytes are equal data. -/
theorem Memory.eq_of_lookup_eq {cap : Nat} {m n : Memory} (hm : Memory.wf cap m) (hn : Memory.wf cap n)
    (h : ∀ a, m.lookup a = n.lookup a) : m = n := by
  replace hm := hm.1
  replace hn := hn.1
  induction m generalizing n with
  | nil =>
    cases n with
    | nil => rfl
    | cons d n => have := h d.1; simp [Memory.lookup] at this
  | cons c m ih =>
    cases n with
    | nil => have := h c.1; simp [Memory.lookup] at this
    | cons d n =>
      obtain ⟨x, y⟩ := c
      obtain ⟨x', y'⟩ := d
      obtain ⟨hx, hm'⟩ := List.pairwise_cons.1 hm
      obtain ⟨hx', hn'⟩ := List.pairwise_cons.1 hn
      have hxx : x = x' := by
        rcases Nat.lt_trichotomy x x' with hlt | heq | hlt
        · have := h x
          rw [Memory.lookup_eq_none (m := (x', y') :: n)] at this
          · simp [Memory.lookup] at this
          · intro e he
            rcases List.mem_cons.1 he with rfl | he
            · exact hlt
            · exact Nat.lt_trans hlt (hx' e he)
        · exact heq
        · have := h x'
          rw [Memory.lookup_eq_none (m := (x, y) :: m)] at this
          · simp [Memory.lookup] at this
          · intro e he
            rcases List.mem_cons.1 he with rfl | he
            · exact hlt
            · exact Nat.lt_trans hlt (hx e he)
      subst hxx
      have hyy : y = y' := by have := h x; simpa [Memory.lookup] using this
      subst hyy
      congr 1
      refine ih (fun a => ?_) hm' hn'
      by_cases ha : x = a
      · subst ha
        rw [Memory.lookup_eq_none hx, Memory.lookup_eq_none hx']
      · have := h a
        simpa [Memory.lookup, ha] using this

/-- The memory after reset is in canonical form. -/
theorem reset_msg_wf : Memory.wf State.reset.cap State.reset.msg := Memory.wf_nil _

end Sys2Proof.Machine
end

