-- ==== Sys2Proof/Laws/Checksum.lean ====
section
/-! SUPPORT. The checksum engine's functions: the bit step is injective, so no byte of the covered region is lost
(42_checksum.md R121 to R124, R130). -/

namespace Sys2Proof.Machine

/-- The two reversals of R126 compose to "register low byte first". -/
theorem be16Enc_swap16 (r : Word16) : be16Enc (swap16 r) = [r.extractLsb' 0 8, r.extractLsb' 8 8] := by
  simp only [be16Enc, swap16]
  congr 1
  · ext i hi; have := BitVec.getLsbD_of_ge r (8+(8+i)) (by omega); simp [← BitVec.getLsbD_eq_getElem, hi, this]; intro; omega
  · congr 1
    ext i hi; simp [← BitVec.getLsbD_eq_getElem, hi]

/-- The bit step is injective (R121). -/
theorem crcBit_injective : Function.Injective crcBit := by
  intro a b h
  have top : ∀ r : Word16, (crcBit r).getLsbD 15 = r.getLsbD 0 := by
    intro r
    simp only [crcBit]
    split
    · rename_i h; rw [h, BitVec.getLsbD_xor, BitVec.getLsbD_ushiftRight, BitVec.getLsbD_of_ge r _ (by omega)]; rfl
    · rename_i h
      rw [Bool.not_eq_true] at h
      rw [h, BitVec.getLsbD_ushiftRight, BitVec.getLsbD_of_ge r _ (by omega)]
  have h0 : a.getLsbD 0 = b.getLsbD 0 := by rw [← top a, ← top b, h]
  have hs : a >>> 1 = b >>> 1 := by
    simp only [crcBit, h0] at h
    split at h
    · exact (BitVec.xor_left_inj _).1 h
    · exact h
  apply BitVec.eq_of_getLsbD_eq
  intro i hi
  cases i with
  | zero => exact h0
  | succ i => have := congrArg (fun x => BitVec.getLsbD x i) hs; simpa [Nat.add_comm] using this

/-- A byte step loses nothing: equal results come from equal registers after the exclusive-or (R122). -/
theorem crcByte_inj {a b : Word16} {x y : Byte} (h : crcByte a x = crcByte b y) :
    a ^^^ x.setWidth 16 = b ^^^ y.setWidth 16 := crcBit_injective.iterate 8 h

theorem foldl_crcByte_inj (bs : List Byte) {a b : Word16} (h : bs.foldl crcByte a = bs.foldl crcByte b) : a = b := by
  induction bs generalizing a b with
  | nil => exact h
  | cons x bs ih => have := crcByte_inj (ih h); exact (BitVec.xor_left_inj _).1 this

/-- Lists that differ in one byte only have different registers. -/
theorem crc16_inj_at (xs ys : List Byte) {x y : Byte} (h : crc16 (xs ++ x :: ys) = crc16 (xs ++ y :: ys)) : x = y := by
  simp only [crc16, List.foldl_append, List.foldl_cons] at h
  have := crcByte_inj (foldl_crcByte_inj ys h)
  rw [BitVec.xor_right_inj] at this
  have h2 := congrArg (fun w : Word16 => w.setWidth 8) this
  simpa using h2

/-- The bytes from 0, cut at one of them. -/
theorem readBytes_split (s : State) (n i : Nat) (h : i < n) :
    readBytes s 0 n = readBytes s 0 i ++ readByte s i :: readBytes s (i+1) (n - (i+1)) := by
  apply List.ext_getElem?
  intro k
  rcases Nat.lt_trichotomy k i with h1 | h1 | h1
  · rw [List.getElem?_append_left (by simpa), readBytes_getElem? _ _ _ _ (by omega), readBytes_getElem? _ _ _ _ h1]
  · subst h1; rw [List.getElem?_append_right (by simp), readBytes_getElem? _ _ _ _ h]; simp
  · rw [List.getElem?_append_right (by simp; omega)]
    simp only [readBytes_length]
    obtain ⟨j, rfl⟩ : ∃ j, k = i + 1 + j := ⟨k - i - 1, by omega⟩
    rw [show i + 1 + j - i = j + 1 by omega, List.getElem?_cons_succ]
    by_cases hk : i + 1 + j < n
    · rw [readBytes_getElem? _ _ _ _ hk, readBytes_getElem? _ _ _ _ (by omega), Nat.zero_add]
    · rw [List.getElem?_eq_none (by simp; omega), List.getElem?_eq_none (by simp; omega)]

end Sys2Proof.Machine
end

