-- ==== Sys2Proof/Laws/PerInstr.lean ====
section
/-! SUPPORT. Facts about every command as syntax, one lemma per constructor. Family `EncodeFields`: the fields of the
encoded word are the command's opcode, a zero `RSV`, and its operands (30_encoding.md R81, R91). -/

namespace Sys2Proof.Laws

theorem opcField_append (o r : Byte) (a : Word16) (d : Word32) : opcField (o ++ r ++ a ++ d) = o := by
  change BitVec.extractLsb' (n := 8 + 8 + 16 + 32) 56 8 (o ++ r ++ a ++ d) = o
  ext i hi
  simp only [BitVec.getElem_extractLsb', BitVec.getLsbD_append]
  repeat' split
  all_goals first | omega | (rw [← BitVec.getLsbD_eq_getElem]; congr 1; omega)

theorem rsvField_append (o r : Byte) (a : Word16) (d : Word32) : rsvField (o ++ r ++ a ++ d) = r := by
  change BitVec.extractLsb' (n := 8 + 8 + 16 + 32) 48 8 (o ++ r ++ a ++ d) = r
  ext i hi
  simp only [BitVec.getElem_extractLsb', BitVec.getLsbD_append]
  repeat' split
  all_goals first | omega | (rw [← BitVec.getLsbD_eq_getElem]; congr 1; omega)

theorem aField_append (o r : Byte) (a : Word16) (d : Word32) : aField (o ++ r ++ a ++ d) = a := by
  change BitVec.extractLsb' (n := 8 + 8 + 16 + 32) 32 16 (o ++ r ++ a ++ d) = a
  ext i hi
  simp only [BitVec.getElem_extractLsb', BitVec.getLsbD_append]
  repeat' split
  all_goals first | omega | (rw [← BitVec.getLsbD_eq_getElem]; congr 1; omega)

theorem dField_append (o r : Byte) (a : Word16) (d : Word32) : dField (o ++ r ++ a ++ d) = d := by
  change BitVec.extractLsb' (n := 8 + 8 + 16 + 32) 0 32 (o ++ r ++ a ++ d) = d
  ext i hi
  simp only [BitVec.getElem_extractLsb', BitVec.getLsbD_append]
  repeat' split
  all_goals first | omega | (rw [← BitVec.getLsbD_eq_getElem]; congr 1; omega)

/-- The four fields of the encoded word (R81). -/
def EncodeFields.Statement (i : Instr) : Prop :=
  opcField (encode i) = i.opcode ∧ rsvField (encode i) = 0x00#8 ∧ aField (encode i) = i.operandA ∧
    dField (encode i) = i.operandD

theorem encode_fields (i : Instr) : EncodeFields.Statement i :=
  ⟨opcField_append _ _ _ _, rsvField_append _ _ _ _, aField_append _ _ _ _, dField_append _ _ _ _⟩

theorem EncodeFields.msgnew : EncodeFields.Statement .msgnew := encode_fields _
theorem EncodeFields.msgdrop : EncodeFields.Statement .msgdrop := encode_fields _
theorem EncodeFields.setlen (n : Word16) : EncodeFields.Statement (.setlen n) := encode_fields _
theorem EncodeFields.shrink (n : Word16) : EncodeFields.Statement (.shrink n) := encode_fields _
theorem EncodeFields.putb (off : Word16) (b : Byte) : EncodeFields.Statement (.putb off b) := encode_fields _
theorem EncodeFields.getb (off : Word16) : EncodeFields.Statement (.getb off) := encode_fields _
theorem EncodeFields.rdreg (idx : Word16) : EncodeFields.Statement (.rdreg idx) := encode_fields _
theorem EncodeFields.wrbe16 (off v : Word16) : EncodeFields.Statement (.wrbe16 off v) := encode_fields _
theorem EncodeFields.rdbe16 (off : Word16) : EncodeFields.Statement (.rdbe16 off) := encode_fields _
theorem EncodeFields.crcapply : EncodeFields.Statement .crcapply := encode_fields _
theorem EncodeFields.crccheck : EncodeFields.Statement .crccheck := encode_fields _
theorem EncodeFields.fpack (off : Word16) (f : Word32) : EncodeFields.Statement (.fpack off f) := encode_fields _
theorem EncodeFields.funpack (off : Word16) : EncodeFields.Statement (.funpack off) := encode_fields _

end Sys2Proof.Laws
end

