-- ==== Sys2Proof/Laws/Encoding.lean ====
section
/-! SUPPORT. A command word as its four fields (30_encoding.md R81), and what matching a row of the opcode table says of
each field (R82). -/

namespace Sys2Proof.Laws

/-- A command word is its four fields side by side (R81). -/
theorem word_eq_fields (w : CommandWord) : w = opcField w ++ rsvField w ++ aField w ++ dField w := by
  change w = (opcField w ++ rsvField w ++ aField w ++ dField w : BitVec (8+8+16+32))
  simp only [opcField, rsvField, aField, dField]
  ext i hi
  rw [← BitVec.getLsbD_eq_getElem, ← BitVec.getLsbD_eq_getElem]
  simp only [BitVec.getLsbD_append, BitVec.getLsbD_extractLsb']
  repeat' split
  all_goals first
   | (simp only [*, decide_true, Bool.true_and]; congr 1; omega)
   | skip
  rw [decide_eq_true (by omega)]; simp only [Bool.true_and]; congr 1; omega

theorem and_fields (o r o' r' : Byte) (a a' : Word16) (d d' : Word32) :
    ((o ++ r ++ a ++ d : BitVec (8+8+16+32)) &&& (o' ++ r' ++ a' ++ d' : BitVec (8+8+16+32)))
     = ((o &&& o') ++ (r &&& r') ++ (a &&& a') ++ (d &&& d') : BitVec (8+8+16+32)) := by
  ext i hi
  simp only [← BitVec.getLsbD_eq_getElem, BitVec.getLsbD_append, BitVec.getLsbD_and]
  repeat' split
  all_goals rfl

theorem fields_inj (o r o' r' : Byte) (a a' : Word16) (d d' : Word32) :
    ((o ++ r ++ a ++ d : BitVec (8+8+16+32)) = (o' ++ r' ++ a' ++ d' : BitVec (8+8+16+32))) ↔
      o = o' ∧ r = r' ∧ a = a' ∧ d = d' := by
  constructor
  · intro h
    have h1 := congrArg (fun w : BitVec 64 => opcField w) h
    have h2 := congrArg (fun w : BitVec 64 => rsvField w) h
    have h3 := congrArg (fun w : BitVec 64 => aField w) h
    have h4 := congrArg (fun w : BitVec 64 => dField w) h
    have e1 := opcField_append o r a d
    have e2 := rsvField_append o r a d
    have e3 := aField_append o r a d
    have e4 := dField_append o r a d
    have e1' := opcField_append o' r' a' d'
    have e2' := rsvField_append o' r' a' d'
    have e3' := aField_append o' r' a' d'
    have e4' := dField_append o' r' a' d'
    exact ⟨e1.symm.trans (h1.trans e1'), e2.symm.trans (h2.trans e2'),
      e3.symm.trans (h3.trans e3'), e4.symm.trans (h4.trans e4')⟩
  · rintro ⟨rfl, rfl, rfl, rfl⟩; rfl

/-- The bits of `A` that a format fixes (R82). -/
def aMask : Format → Word16
  | .Z => 0xFFFF#16 | _ => 0
/-- The bits of `D` that a format fixes (R82). -/
def dMask : Format → Word32
  | .Z | .A => 0xFFFFFFFF#32 | .AB => 0xFFFFFF00#32 | .AH => 0xFFFF0000#32 | .AW => 0

theorem mask_fields (f : Format) : f.mask = (0xFF#8 ++ 0xFF#8 ++ aMask f ++ dMask f : BitVec (8+8+16+32)) := by
  cases f <;> rfl

theorem match_fields (r : Row) : r.matchWord = (r.opc ++ 0#8 ++ 0#16 ++ 0#32 : BitVec (8+8+16+32)) := by
  rw [word_eq_fields r.matchWord]
  apply (fields_inj _ _ _ _ _ _ _ _).2
  simp only [opcField, rsvField, aField, dField, Row.matchWord]
  refine ⟨?_, ?_, ?_, ?_⟩ <;> ext i hi <;> simp [← BitVec.getLsbD_eq_getElem] <;> first
    | omega
    | (simp only [hi, decide_true, Bool.true_and]; rw [decide_eq_true (by omega), decide_eq_true (by omega)]; simp)

/-- What matching a row says of the fields of a word (R82). -/
theorem matches_iff (w : CommandWord) (r : Row) : w &&& r.mask = r.matchWord ↔
    opcField w = r.opc ∧ rsvField w = 0#8 ∧ aField w &&& aMask r.format = 0#16 ∧ dField w &&& dMask r.format = 0#32 := by
  rw [Row.mask, mask_fields, match_fields]
  conv_lhs => lhs; lhs; rw [word_eq_fields w]
  have h := and_fields (opcField w) (rsvField w) 0xFF#8 0xFF#8 (aField w) (aMask r.format) (dField w) (dMask r.format)
  change ((opcField w ++ rsvField w ++ aField w ++ dField w : BitVec (8+8+16+32)) &&&
    (0xFF#8 ++ 0xFF#8 ++ aMask r.format ++ dMask r.format : BitVec (8+8+16+32))) = _ ↔ _
  rw [h, fields_inj]
  rw [show (255#8) = BitVec.allOnes 8 from rfl, BitVec.and_allOnes, BitVec.and_allOnes]

/-- A `D` field whose bits from `k` up are zero is its low part. -/
theorem low_of_mask {d : Word32} {k : Nat} (hk : k ≤ 32) (h : d &&& (BitVec.allOnes 32 <<< k) = 0#32) :
    (d.extractLsb' 0 k).setWidth 32 = d := by
  ext i hi
  have := congrArg (fun x : Word32 => x.getLsbD i) h
  simp only [BitVec.getLsbD_and, BitVec.getLsbD_shiftLeft, BitVec.getLsbD_zero, BitVec.getLsbD_allOnes] at this
  simp only [← BitVec.getLsbD_eq_getElem, BitVec.getLsbD_setWidth, BitVec.getLsbD_extractLsb', hi,
    decide_true, Bool.true_and, Nat.zero_add]
  by_cases hik : i < k
  · simp [hik]
  · simp only [hik, hi, decide_true, decide_false, Bool.true_and, Bool.not_false, Bool.false_and] at this ⊢
    rw [decide_eq_true (by omega)] at this
    simpa using this.symm

end Sys2Proof.Laws
end

