-- ==== Sys2Proof/Laws/Ops.lean ====
section
/-! SUPPORT. One lemma per shared operation of Machine/Ops.lean, saying once everything it can answer. -/

namespace Sys2Proof.Machine

theorem raise_eq_next {c : Code} {s t : State} :
    raise c s = .next t ↔ t = { s with status := c.value, out := none } := by
  simp [raise, eq_comm]

theorem done_eq_next {s t : State} :
    done s = .next t ↔ t = { s with status := Code.ok.value, out := none } := by
  simp [done, eq_comm]

theorem returnValue_eq_next {v : Word32} {s t : State} : returnValue v s = .next t ↔ t = { s with out := some v } := by
  simp [returnValue, eq_comm]

theorem requireMessage_present {s : State} (h : s.present = true) (k : Result) : requireMessage s k = k := by
  simp [requireMessage, h]

theorem requireMessage_absent {s : State} (h : s.present = false) (k : Result) :
    requireMessage s k = .next { s with status := Code.noBuf.value, out := none } := by
  simp [requireMessage, raise, h]

/-- The presence check goes on, or raises `E_NOBUF` (R223). -/
theorem requireMessage_eq_next {s t : State} {k : Result} :
    requireMessage s k = .next t ↔
      s.present = true ∧ k = .next t ∨
      s.present = false ∧ t = { s with status := Code.noBuf.value, out := none } := by
  cases h : s.present <;> simp [requireMessage, h, raise_eq_next]

theorem requireRange_in {off n : Nat} {s : State} (h : off + n ≤ s.cap) (k : Result) : requireRange off n s k = k := by
  simp [requireRange, h]

theorem requireRange_out {off n : Nat} {s : State} (h : s.cap < off + n) (k : Result) :
    requireRange off n s k = .next { s with status := Code.inval.value, out := none } := by
  simp [requireRange, raise, Nat.not_le.2 h]

/-- The range check goes on, or raises `E_INVAL` (R52). -/
theorem requireRange_eq_next {off n : Nat} {s t : State} {k : Result} :
    requireRange off n s k = .next t ↔
      off + n ≤ s.cap ∧ k = .next t ∨
      s.cap < off + n ∧ t = { s with status := Code.inval.value, out := none } := by
  rcases Nat.lt_or_ge s.cap (off + n) with h | h
  · simp [requireRange_out h, h, Nat.not_le.2 h, eq_comm]
  · simp [requireRange_in h, h, Nat.not_lt.2 h]

theorem memRead_in {off n : Nat} {s : State} (h : off + n ≤ s.cap) (k : List Byte → Result) :
    memRead off n s k = k (readBytes s off n) := by simp [memRead, h]

/-- A MemRead that goes on was inside the buffer and gave the bytes there (R10). -/
theorem memRead_eq_next {off n : Nat} {s t : State} {k : List Byte → Result} :
    memRead off n s k = .next t ↔ off + n ≤ s.cap ∧ k (readBytes s off n) = .next t := by
  by_cases h : off + n ≤ s.cap <;> simp [memRead, h]

theorem memWrite_in {off : Nat} {bs : List Byte} {s : State} (h : off + bs.length ≤ s.cap) (k : State → Result) :
    memWrite off bs s k = k { s with msg := s.msg.insertAll off bs } := by simp [memWrite, h]

/-- A MemWrite that goes on was inside the buffer and changed `MSG` only (R10); its bytes are `readByte_insertAll`. -/
theorem memWrite_eq_next {off : Nat} {bs : List Byte} {s t : State} {k : State → Result} :
    memWrite off bs s k = .next t ↔
      off + bs.length ≤ s.cap ∧ k { s with msg := s.msg.insertAll off bs } = .next t := by
  by_cases h : off + bs.length ≤ s.cap <;> simp [memWrite, h]

end Sys2Proof.Machine
end

