-- ==== Sys2Proof/Laws/Exec.lean ====
section
/-! SUPPORT. One lemma that says once everything `exec` can answer; the whole-machine rules are case analyses of it. -/

namespace Sys2Proof.Machine

/-- Everything a command can answer when it goes on: a fault that changes `STATUS` only; the two absent reads; MSGNEW;
MSGDROP; SETLEN; SHRINK; a read into `RES`; a legal RDREG; CRCCHECK; a store (R32, R220). -/
theorem exec_cases {i : Instr} {s t : State} (h : exec i s = .next t) :
    (∃ c ∈ [Code.noBuf, .tooLong, .tooShort, .inval],
      t = { s with status := c.value, out := none } ∧ isLegalRdreg i = false) ∨
    (s.present = false ∧
      ((∃ off, i = .rdbe16 off ∧ t = { s with res := 0#32, status := 0x01#8, out := none }) ∨
        (∃ off, i = .funpack off ∧ t = { s with res := Config.nanSentinel, status := 0x01#8, out := none }))) ∨
    (i = .msgnew ∧
      t = { s with present := true, len := 0#16, msg := [], draws := s.draws + 1, status := 0#8, out := none }) ∨
    (i = .msgdrop ∧ t = { s with present := false, len := 0#16, status := 0#8, out := none }) ∨
    (s.present = true ∧ ∃ n, i = .setlen n ∧ n.toNat ≤ s.cap ∧ t = { s with len := n, status := 0#8, out := none }) ∨
    (s.present = true ∧ ∃ n, i = .shrink n ∧ n.toNat ≤ s.len.toNat ∧
      t = { s with len := n, status := 0#8, out := none }) ∨
    (∃ r, (∃ off, i = .getb off ∨ i = .rdbe16 off ∨ i = .funpack off) ∧
      t = { s with res := r, status := 0#8, out := none }) ∨
    (∃ v, isLegalRdreg i = true ∧ t = { s with out := v }) ∨
    (i = .crccheck ∧ ∃ r, ∃ c ∈ [Code.ok, .badBuf], t = { s with crcr := r, status := c.value, out := none }) ∨
    (s.present = true ∧ ∃ bs r, bs.length = (storeRange i s).2 ∧ (storeRange i s).1 + bs.length ≤ s.cap ∧
      (i ≠ .crcapply → r = s.crcr) ∧ 0 < bs.length ∧
      t = { s with crcr := r, msg := s.msg.insertAll (storeRange i s).1 bs, status := 0#8, out := none }) := by
  cases i with
  | msgnew => simp [exec, execMsgnew, done] at h; right; right; left; exact ⟨rfl, h.symm⟩
  | msgdrop => simp [exec, execMsgdrop, done] at h; right; right; right; left; exact ⟨rfl, h.symm⟩
  | setlen n =>
    simp only [exec, execSetlen, requireMessage_eq_next] at h
    rcases h with ⟨hp, h⟩ | ⟨hp, h⟩
    · split at h
      · rw [raise_eq_next] at h; left; exact ⟨.tooLong, by simp, h, rfl⟩
      · rw [done_eq_next] at h; right; right; right; right; left; exact ⟨hp, n, rfl, by omega, h⟩
    · left; exact ⟨.noBuf, by simp, h, rfl⟩
  | shrink n =>
    simp only [exec, execShrink, requireMessage_eq_next] at h
    rcases h with ⟨hp, h⟩ | ⟨hp, h⟩
    · split at h
      · rw [raise_eq_next] at h; left; exact ⟨.tooShort, by simp, h, rfl⟩
      · rw [done_eq_next] at h; right; right; right; right; right; left; exact ⟨hp, n, rfl, by omega, h⟩
    · left; exact ⟨.noBuf, by simp, h, rfl⟩
  | putb off b =>
    simp only [exec, execPutb, requireMessage_eq_next, requireRange_eq_next, memWrite_eq_next, done_eq_next] at h
    rcases h with ⟨hp, ⟨hr, -, h⟩ | ⟨-, h⟩⟩ | ⟨hp, h⟩
    · iterate 9 right
      exact ⟨hp, [b], s.crcr, rfl, hr, fun _ => rfl, by simp, h⟩
    · left; exact ⟨.inval, by simp, h, rfl⟩
    · left; exact ⟨.noBuf, by simp, h, rfl⟩
  | wrbe16 off b =>
    simp only [exec, execWrbe16, requireMessage_eq_next, requireRange_eq_next, memWrite_eq_next, done_eq_next] at h
    rcases h with ⟨hp, ⟨hr, -, h⟩ | ⟨-, h⟩⟩ | ⟨hp, h⟩
    · iterate 9 right
      exact ⟨hp, be16Enc b, s.crcr, rfl, hr, fun _ => rfl, by simp [be16Enc], h⟩
    · left; exact ⟨.inval, by simp, h, rfl⟩
    · left; exact ⟨.noBuf, by simp, h, rfl⟩
  | fpack off b =>
    simp only [exec, execFpack, requireMessage_eq_next, requireRange_eq_next, memWrite_eq_next, done_eq_next] at h
    rcases h with ⟨hp, ⟨hr, -, h⟩ | ⟨-, h⟩⟩ | ⟨hp, h⟩
    · iterate 9 right
      exact ⟨hp, packedBytes (pack b), s.crcr, rfl, hr, fun _ => rfl, by simp [packedBytes], h⟩
    · left; exact ⟨.inval, by simp, h, rfl⟩
    · left; exact ⟨.noBuf, by simp, h, rfl⟩
  | getb off =>
    simp only [exec, execGetb, requireMessage_eq_next, requireRange_eq_next, memRead_eq_next, done_eq_next] at h
    rcases h with ⟨hp, ⟨hr, -, h⟩ | ⟨-, h⟩⟩ | ⟨hp, h⟩
    · iterate 6 right
      left; exact ⟨_, ⟨off, .inl rfl⟩, h⟩
    · left; exact ⟨.inval, by simp, h, rfl⟩
    · left; exact ⟨.noBuf, by simp, h, rfl⟩
  | rdbe16 off =>
    simp only [exec, execRdbe16] at h
    split at h
    · simp only [requireRange_eq_next, memRead_eq_next, done_eq_next] at h
      rcases h with ⟨hr, -, h⟩ | ⟨-, h⟩
      · iterate 6 right
        left; exact ⟨_, ⟨off, .inr (.inl rfl)⟩, h⟩
      · left; exact ⟨.inval, by simp, h, rfl⟩
    · rename_i hp; rw [raise_eq_next] at h; right; left; exact ⟨by simpa using hp, .inl ⟨off, rfl, h⟩⟩
  | funpack off =>
    simp only [exec, execFunpack] at h
    split at h
    · simp only [requireRange_eq_next, memRead_eq_next, done_eq_next] at h
      rcases h with ⟨hr, -, h⟩ | ⟨-, h⟩
      · iterate 6 right
        left; exact ⟨_, ⟨off, .inr (.inr rfl)⟩, h⟩
      · left; exact ⟨.inval, by simp, h, rfl⟩
    · rename_i hp; rw [raise_eq_next] at h; right; left; exact ⟨by simpa using hp, .inr ⟨off, rfl, h⟩⟩
  | rdreg idx =>
    simp only [exec, execRdreg] at h
    split at h
    · rename_i r hr
      rw [returnValue_eq_next] at h
      iterate 7 right
      left
      refine ⟨_, ?_, h⟩
      simp only [isLegalRdreg, decide_eq_true_eq]
      simp only [Reg.ofIndex] at hr
      split at hr <;> simp_all
    · rename_i hr
      rw [execIllegal, raise_eq_next] at h
      left; refine ⟨.inval, by simp, h, ?_⟩
      simp only [isLegalRdreg, decide_eq_false_iff_not]
      intro hle
      simp only [Reg.ofIndex] at hr
      generalize idx.toNat = k at *
      interval_cases k <;> simp at hr
  | crcapply =>
    simp only [exec, execCrcapply, requireChecksumField, requireMessage_eq_next] at h
    rcases h with ⟨hp, h⟩ | ⟨hp, h⟩
    · split at h
      · rw [raise_eq_next] at h; left; exact ⟨.tooShort, by simp, h, rfl⟩
      · simp only [memRead_eq_next, memWrite_eq_next, done_eq_next] at h
        obtain ⟨h1, h2, h⟩ := h
        iterate 9 right
        refine ⟨hp, _, _, rfl, h2, fun hne => absurd rfl hne, by simp [be16Enc], h⟩
    · left; exact ⟨.noBuf, by simp, h, rfl⟩
  | crccheck =>
    simp only [exec, execCrccheck, requireChecksumField, requireMessage_eq_next] at h
    rcases h with ⟨hp, h⟩ | ⟨hp, h⟩
    · split at h
      · rw [raise_eq_next] at h; left; exact ⟨.tooShort, by simp, h, rfl⟩
      · simp only [memRead_eq_next] at h
        obtain ⟨h1, h2, h⟩ := h
        iterate 8 right
        left
        split at h
        · rw [done_eq_next] at h; exact ⟨rfl, _, .ok, by simp, h⟩
        · rw [raise_eq_next] at h; exact ⟨rfl, _, .badBuf, by simp, h⟩
    · left; exact ⟨.noBuf, by simp, h, rfl⟩

end Sys2Proof.Machine
end

