-- ==== Sys2Proof/Laws/FloatCodec.lean ====
section
/-! SUPPORT. The quantities of the float codec as plain arithmetic on the numbers that the patterns are (43_float_codec.md
R142, R143, R150, R152), so that `omega` closes what is left. -/

namespace Sys2Proof.Machine

theorem packedExp_eq (p : PackedFloat) : packedExp p = p.byte2.toNat % 128 * 2 + p.byte3.toNat / 128 := by
  have h2 := p.byte2.isLt
  have h3 := p.byte3.isLt
  simp only [packedExp]
  rw [show (0x7F : Nat) = 2 ^ 7 - 1 from rfl, Nat.and_two_pow_sub_one_eq_mod, Nat.and_one_is_mod, Nat.shiftRight_eq_div_pow,
    ← Nat.shiftLeft_add_eq_or_of_lt (by omega), Nat.shiftLeft_eq]
  omega

theorem packedMantissa_eq (p : PackedFloat) :
    packedMantissa p = 2 ^ 23 + p.byte3.toNat % 128 * 65536 + p.byte0.toNat * 256 + p.byte1.toNat := by
  have h0 := p.byte0.isLt
  have h1 := p.byte1.isLt
  simp only [packedMantissa]
  have e1 : p.byte0.toNat <<< 8 ||| p.byte1.toNat = p.byte0.toNat * 256 + p.byte1.toNat := by
    rw [← Nat.shiftLeft_add_eq_or_of_lt h1, Nat.shiftLeft_eq]
  have e2 : (p.byte3.toNat % 2 ^ 7) <<< 16 ||| (p.byte0.toNat * 256 + p.byte1.toNat) =
      p.byte3.toNat % 128 * 65536 + (p.byte0.toNat * 256 + p.byte1.toNat) := by
    rw [← Nat.shiftLeft_add_eq_or_of_lt (by omega), Nat.shiftLeft_eq]; norm_num
  rw [show (0x7F : Nat) = 2 ^ 7 - 1 from rfl, Nat.and_two_pow_sub_one_eq_mod, Nat.or_assoc, Nat.or_assoc, e1, e2,
    ← Nat.shiftLeft_add_eq_or_of_lt (by omega), Nat.shiftLeft_eq]
  omega

theorem packedSign_eq (p : PackedFloat) : packedSign p = decide (128 ≤ p.byte2.toNat) := by
  have : ∀ b : Byte, (b &&& 128#8 != 0#8) = decide (128 ≤ b.toNat) := by decide
  exact this p.byte2

theorem floatExp_eq (f : Word32) : (floatExp f).toNat = f.toNat / 2^23 % 256 := by
  simp [floatExp, Nat.shiftRight_eq_div_pow]

theorem floatFrac_eq (f : Word32) : (floatFrac f).toNat = f.toNat % 2^23 := by
  simp [floatFrac]

theorem floatSign_eq (f : Word32) : (floatSign f == 1#1) = decide (2^31 ≤ f.toNat) := by
  have := f.isLt
  rw [Bool.eq_iff_iff]
  simp only [floatSign, beq_iff_eq, decide_eq_true_eq, ← BitVec.toNat_inj, BitVec.extractLsb'_toNat,
    Nat.shiftRight_eq_div_pow, BitVec.toNat_ofNat]
  omega

theorem append4_toNat (a b c d : Byte) :
    (a ++ b ++ c ++ d : Word32).toNat = a.toNat * 2^24 + b.toNat * 2^16 + c.toNat * 2^8 + d.toNat := by
  change BitVec.toNat (w := 8+8+8+8) (a ++ b ++ c ++ d) = _
  rw [BitVec.toNat_append, BitVec.toNat_append, BitVec.toNat_append]
  have := b.isLt; have := c.isLt; have := d.isLt
  rw [← Nat.shiftLeft_add_eq_or_of_lt (by omega), ← Nat.shiftLeft_add_eq_or_of_lt (by omega),
    ← Nat.shiftLeft_add_eq_or_of_lt (by omega)]
  simp only [Nat.shiftLeft_eq]; omega

theorem unpack_toNat_normal (p : PackedFloat) (h1 : 1 ≤ packedExp p) (h2 : packedExp p ≤ 254) :
    (unpack p).toNat = p.byte2.toNat * 2^24 + p.byte3.toNat * 2^16 + p.byte0.toNat * 2^8 + p.byte1.toNat := by
  rw [unpack, if_pos ⟨h1, h2⟩, append4_toNat]

theorem unpack_toNat_sub (p : PackedFloat) (h1 : packedExp p = 0) (h2 : packedMantissa p % 2 = 0) :
    (unpack p).toNat = (if packedSign p then 2^31 else 0) + packedMantissa p / 2 := by
  rw [unpack, if_neg (by omega), if_pos ⟨h1, h2⟩]
  have := packedMantissa_eq p
  have := p.byte3.isLt; have := p.byte0.isLt; have := p.byte1.isLt
  rw [← Nat.shiftLeft_add_eq_or_of_lt (by rw [Nat.shiftRight_eq_div_pow]; omega)]
  simp only [Nat.shiftRight_eq_div_pow, Nat.shiftLeft_eq, BitVec.toNat_ofNat]
  cases packedSign p <;> simp <;> omega

/-- R144 in terms of R142: a normal pattern packs by the source's formulas with `be = E`, `m = 2^23 + F`. -/
theorem packFormula_normal (f : Word32) (h : isNormal f = true) :
   packNormal f = packFormula (floatSign f == 1#1) (floatExp f).toNat (2^23 + (floatFrac f).toNat) := by
  have := f.isLt
  have s2 := floatExp_eq f
  have s3 := floatFrac_eq f
  rw [floatSign_eq, s2, s3]
  simp only [packNormal, packFormula, PackedFloat.mk.injEq]
  generalize hx : f.toNat = x at *
  have m7 : ∀ n, n &&& 0x7F = n % 128 := fun n => Nat.and_two_pow_sub_one_eq_mod n 7
  have m8 : ∀ n, n &&& 0xFF = n % 256 := fun n => Nat.and_two_pow_sub_one_eq_mod n 8
  refine ⟨?_, ?_, ?_, ?_⟩ <;> apply BitVec.eq_of_toNat_eq <;>
    simp only [BitVec.extractLsb'_toNat, BitVec.toNat_ofNat, hx, m7, m8, Nat.shiftRight_eq_div_pow, Nat.and_one_is_mod]
  · omega
  · omega
  · have : (if decide (2^31 ≤ x) = true then 0x80 else 0x00) ||| x / 2^23 % 256 / 2^1 % 128 =
        (if decide (2^31 ≤ x) = true then 0x80 else 0x00) + x / 2^23 % 256 / 2^1 % 128 := by
      split
      · exact (Nat.two_pow_add_eq_or_of_lt (i := 7) (by omega) 1).symm
      · simp
    rw [this]; split <;> simp_all <;> omega
  · rw [← Nat.shiftLeft_add_eq_or_of_lt (by omega), Nat.shiftLeft_eq]
    omega

theorem floatExp_append (a : BitVec 1) (b : Byte) (c : BitVec 23) : floatExp (a ++ b ++ c) = b := by
  change BitVec.extractLsb' (n := 1 + 8 + 23) 23 8 (a ++ b ++ c) = b
  ext i hi
  simp only [BitVec.getElem_extractLsb', BitVec.getLsbD_append]
  repeat' split
  all_goals first | omega | (rw [← BitVec.getLsbD_eq_getElem]; congr 1; omega)

theorem floatFrac_append (a : BitVec 1) (b : Byte) (c : BitVec 23) : floatFrac (a ++ b ++ c) = c := by
  change BitVec.extractLsb' (n := 1 + 8 + 23) 0 23 (a ++ b ++ c) = c
  ext i hi
  simp only [BitVec.getElem_extractLsb', BitVec.getLsbD_append]
  repeat' split
  all_goals first | omega | (rw [← BitVec.getLsbD_eq_getElem]; congr 1; omega)

/-- "bits 30:23 all ones, bits 22:0 not all zero" (R6), for any fraction below 2^23 - 1 counted from 1. -/
theorem isNaN_append (a : BitVec 1) (k : Fin 8388607) : isNaN (a ++ 0xFF#8 ++ BitVec.ofNat 23 (k.val + 1)) = true := by
  rw [isNaN, floatExp_append, floatFrac_append, Bool.and_eq_true]
  refine ⟨beq_self_eq_true _, bne_iff_ne.2 fun h => ?_⟩
  have hk := k.isLt
  have h := congrArg BitVec.toNat h
  rw [BitVec.toNat_ofNat, Nat.mod_eq_of_lt (by omega)] at h
  exact absurd h (Nat.succ_ne_zero _)

end Sys2Proof.Machine
end

