-- ==== Sys2Proof/Laws/HostSequences.lean ====
section
/-! SUPPORT. One lemma per step of a host sequence (45_host_sequences.md): issuing a command, reading a register, and the
tests `present()`, `st()`, `len()`. -/

namespace Sys2Proof.Machine

theorem issue_next {i : Instr} {s t : State} (h : exec i s = .next t) (k : State → SeqResult) : issue i s k = k t := by
  simp [issue, h]

theorem rdreg_exec (r : Reg) (s : State) : exec (.rdreg r.index) s = .next { s with out := some (readReg s r) } := by
  cases r <;> rfl

theorem fetchReg_eq (r : Reg) (s : State) (k : Word32 → State → SeqResult) :
    fetchReg r s k = k (readReg s r) { s with out := some (readReg s r) } := by
  rw [fetchReg, issue_next (rdreg_exec r s)]; rfl

theorem ifPresent_pos {s : State} (h : s.present = true) (k : State → SeqResult) :
    ifPresent s k = k { s with out := some 1#32 } := by
  rw [ifPresent, fetchReg_eq]; simp [readReg, h]

theorem ifPresent_neg {s : State} (h : s.present = false) (k : State → SeqResult) :
    ifPresent s k = finish .noBuf {} { s with out := some 0#32 } := by
  rw [ifPresent, fetchReg_eq]; simp [readReg, h]

theorem orStatus_ok {s : State} (h : s.status = 0#8) (k : State → SeqResult) :
    orStatus s k = k { s with out := some (s.status.setWidth 32) } := by
  rw [orStatus, fetchReg_eq]; simp [readReg, h, Code.value]

theorem orStatus_bad {s : State} (h : s.status ≠ 0#8) (k : State → SeqResult) :
    orStatus s k = .next ⟨s.status, {}, { s with out := some (s.status.setWidth 32) }⟩ := by
  rw [orStatus, fetchReg_eq]
  have : (s.status.setWidth 32).setWidth 8 = s.status := by simp
  simp only [readReg, this, Code.value, h, if_false]

theorem orCode_ok {s : State} {c : Code} {o : Outputs} (h : s.status = 0#8) (k : State → SeqResult) :
    orCode c o s k = k { s with out := some (s.status.setWidth 32) } := by
  rw [orCode, fetchReg_eq]; simp [readReg, h, Code.value]

theorem orCode_bad {s : State} {c : Code} {o : Outputs} (h : s.status ≠ 0#8) (k : State → SeqResult) :
    orCode c o s k = finish c o { s with out := some (s.status.setWidth 32) } := by
  rw [orCode, fetchReg_eq]
  have : (s.status.setWidth 32).setWidth 8 = s.status := by simp
  simp only [readReg, this, Code.value, h, if_false]

theorem ifLen_ge {n : Nat} {o : Outputs} {s : State} (h : n ≤ s.len.toNat) (k : State → SeqResult) :
    ifLenAtLeast n o s k = k { s with out := some (s.len.setWidth 32) } := by
  rw [ifLenAtLeast, fetchReg_eq]; rw [if_neg]; rfl
  have := s.len.isLt
  simp [readReg]; omega

theorem ifLen_lt {n : Nat} {o : Outputs} {s : State} (h : s.len.toNat < n) (k : State → SeqResult) :
    ifLenAtLeast n o s k = finish .tooShort o { s with out := some (s.len.setWidth 32) } := by
  rw [ifLenAtLeast, fetchReg_eq]; rw [if_pos]; rfl
  have := s.len.isLt
  simp [readReg]; omega

/-! ### Steps that leave the message alone -/

/-- Two states with the same message, as far as the host can see it by reading: presence, length, capacity, bytes. -/
structure SameMessage (s t : State) : Prop where
  present : t.present = s.present
  len : t.len = s.len
  cfg : t.cfg = s.cfg
  byte : ∀ a, readByte t a = readByte s a

theorem SameMessage.cap {s t : State} (h : SameMessage s t) : t.cap = s.cap := by simp [State.cap, h.cfg]

theorem SameMessage.trans {s t u : State} (h : SameMessage s t) (h' : SameMessage t u) : SameMessage s u :=
  ⟨h'.present.trans h.present, h'.len.trans h.len, h'.cfg.trans h.cfg, fun a => (h'.byte a).trans (h.byte a)⟩

theorem SameMessage.readBytes {s t : State} (h : SameMessage s t) (off n : Nat) :
    readBytes t off n = readBytes s off n :=
  readBytes_congr fun a _ _ => h.byte a

theorem ifPresent_step {s : State} (h : s.present = true) (k : State → SeqResult) :
    ∃ t, ifPresent s k = k t ∧ SameMessage s t := ⟨_, ifPresent_pos h k, rfl, rfl, rfl, fun _ => rfl⟩

theorem ifLenAtLeast_step {n : Nat} {o : Outputs} {s : State} (h : n ≤ s.len.toNat) (k : State → SeqResult) :
    ∃ t, ifLenAtLeast n o s k = k t ∧ SameMessage s t := ⟨_, ifLen_ge h k, rfl, rfl, rfl, fun _ => rfl⟩

theorem orStatus_step {s : State} (h : s.status = 0#8) (k : State → SeqResult) :
    ∃ t, orStatus s k = k t ∧ SameMessage s t := ⟨_, orStatus_ok h k, rfl, rfl, rfl, fun _ => rfl⟩

theorem orCode_step {c : Code} {o : Outputs} {s : State} (h : s.status = 0#8) (k : State → SeqResult) :
    ∃ t, orCode c o s k = k t ∧ SameMessage s t := ⟨_, orCode_ok h k, rfl, rfl, rfl, fun _ => rfl⟩

theorem fetchByte_step {off : Word16} {s : State} (hp : s.present = true) (hr : off.toNat + 1 ≤ s.cap)
    (k : Byte → State → SeqResult) :
    ∃ t, fetchByte off s k = k (readByte s off.toNat) t ∧ SameMessage s t := by
  have e : exec (.getb off) s =
      .next { s with res := (readByte s off.toNat).setWidth 32, status := 0#8, out := none } :=
    (requireMessage_present hp _).trans ((requireRange_in hr _).trans (memRead_in hr _))
  have back : ((readByte s off.toNat).setWidth 32).setWidth 8 = readByte s off.toNat := by simp
  refine ⟨_, (issue_next e _).trans ((fetchReg_eq .res _ _).trans (congrFun (congrArg k back) _)), rfl, rfl, rfl, fun _ => rfl⟩

theorem fetchWord16_step {off : Word16} {s : State} (hp : s.present = true) (hr : off.toNat + 2 ≤ s.cap)
    (k : Word16 → State → SeqResult) :
    ∃ t, fetchWord16 off s k = k (be16Dec (readByte s off.toNat) (readByte s (off.toNat + 1))) t ∧ SameMessage s t := by
  have e : exec (.rdbe16 off) s =
      .next { s with
        res := (be16Dec (readByte s off.toNat) (readByte s (off.toNat + 1))).setWidth 32, status := 0#8, out := none } :=
    (if_pos hp).trans ((requireRange_in hr _).trans (memRead_in hr _))
  have back : ∀ v : Word16, (v.setWidth 32).setWidth 16 = v := fun v => by simp
  refine ⟨_, (issue_next e _).trans ((fetchReg_eq .res _ _).trans (congrFun (congrArg k (back _)) _)), rfl, rfl, rfl,
    fun _ => rfl⟩

/-! ### Steps that write the message or its length -/

theorem issue_setlen_step {n : Word16} {s : State} (hp : s.present = true) (hn : n.toNat ≤ s.cap)
    (k : State → SeqResult) :
    ∃ t, issue (.setlen n) s k = k t ∧ t.present = true ∧ t.len = n ∧ t.cfg = s.cfg ∧ t.status = 0#8 ∧
      ∀ a, readByte t a = readByte s a := by
  have e : exec (.setlen n) s = .next { s with len := n, status := 0#8, out := none } :=
    (requireMessage_present hp _).trans (if_neg (Nat.not_lt.2 hn))
  exact ⟨_, issue_next e k, hp, rfl, rfl, rfl, fun _ => rfl⟩

theorem issue_shrink_step {n : Word16} {s : State} (hp : s.present = true) (hn : n.toNat ≤ s.len.toNat)
    (k : State → SeqResult) :
    ∃ t, issue (.shrink n) s k = k t ∧ t.present = true ∧ t.len = n ∧ t.cfg = s.cfg ∧ t.status = 0#8 ∧
      ∀ a, readByte t a = readByte s a := by
  have e : exec (.shrink n) s = .next { s with len := n, status := 0#8, out := none } :=
    (requireMessage_present hp _).trans (if_neg (Nat.not_lt.2 hn))
  exact ⟨_, issue_next e k, hp, rfl, rfl, rfl, fun _ => rfl⟩

theorem issue_putb_step {off : Word16} {b : Byte} {s : State} (hp : s.present = true) (hr : off.toNat + 1 ≤ s.cap)
    (k : State → SeqResult) :
    ∃ t, issue (.putb off b) s k = k t ∧ t.present = true ∧ t.len = s.len ∧ t.cfg = s.cfg ∧ t.status = 0#8 ∧
      ∀ a, readByte t a = if a = off.toNat then b else readByte s a := by
  have e : exec (.putb off b) s = _ :=
    (requireMessage_present hp _).trans ((requireRange_in hr _).trans (memWrite_in hr _))
  refine ⟨_, issue_next e k, hp, rfl, rfl, rfl, fun a => ?_⟩
  rw [readByte_mk_insertAll]
  by_cases h : a = off.toNat
  · subst h; simp
  · rw [if_neg (by simp; omega), if_neg h]

theorem issue_wrbe16_step {off v : Word16} {s : State} (hp : s.present = true) (hr : off.toNat + 2 ≤ s.cap)
    (k : State → SeqResult) :
    ∃ t, issue (.wrbe16 off v) s k = k t ∧ t.present = true ∧ t.len = s.len ∧ t.cfg = s.cfg ∧ t.status = 0#8 ∧
      ∀ a, readByte t a =
        if a = off.toNat then v.extractLsb' 8 8 else if a = off.toNat + 1 then v.extractLsb' 0 8 else readByte s a := by
  have e : exec (.wrbe16 off v) s = _ :=
    (requireMessage_present hp _).trans ((requireRange_in hr _).trans (memWrite_in hr _))
  refine ⟨_, issue_next e k, hp, rfl, rfl, rfl, fun a => ?_⟩
  rw [readByte_mk_insertAll]
  by_cases h : a = off.toNat
  · subst h; simp [be16Enc]
  · by_cases h1 : a = off.toNat + 1
    · subst h1; simp [be16Enc]
    · rw [if_neg (by simp [be16Enc]; omega), if_neg h, if_neg h1]

/-! ### Loops over consecutive offsets, and the function code -/

theorem toNat_ofNat_offset {n : Nat} (h : n < 65536) : (BitVec.ofNat 16 n).toNat = n := by simp; omega

theorem cap_eq_of_cfg {s t : State} (h : t.cfg = s.cfg) : t.cap = s.cap := by simp [State.cap, h]

theorem writeValues_step (vs : List Word16) (off : Nat) (s : State) (hp : s.present = true)
    (hr : off + 2 * vs.length ≤ s.cap) (k : State → SeqResult) :
    ∃ t, writeValues vs off s k = k t ∧ t.present = true ∧ t.len = s.len ∧ t.cfg = s.cfg ∧
      (∀ a, a < off ∨ off + 2 * vs.length ≤ a → readByte t a = readByte s a) ∧
      ∀ i v, vs[i]? = some v →
        readByte t (off + 2 * i) = v.extractLsb' 8 8 ∧ readByte t (off + 2 * i + 1) = v.extractLsb' 0 8 := by
  induction vs generalizing off s with
  | nil => exact ⟨s, rfl, hp, rfl, rfl, fun _ _ => rfl, by simp⟩
  | cons v vs ih =>
    have hc := s.cap_le
    simp only [List.length_cons] at hr ⊢
    have ho := toNat_ofNat_offset (n := off) (by omega)
    obtain ⟨t1, e1, p1, l1, c1, -, b1⟩ := issue_wrbe16_step (off := BitVec.ofNat 16 off) (v := v) (s := s) hp
      (by omega) (fun s => writeValues vs (off + 2) s k)
    obtain ⟨t, e, p, l, c, f, b⟩ := ih (off + 2) t1 p1 (by rw [cap_eq_of_cfg c1]; omega)
    rw [ho] at b1
    refine ⟨t, by rw [writeValues, e1, e], p, l.trans l1, c.trans c1, fun a ha => ?_, fun i w hw => ?_⟩
    · rw [f a (by omega), b1, if_neg (by omega), if_neg (by omega)]
    · cases i with
      | zero =>
        obtain rfl : v = w := by simpa using hw
        constructor
        · rw [f _ (by omega), b1, if_pos (by omega)]
        · rw [f _ (by omega), b1, if_neg (by omega), if_pos (by omega)]
      | succ i =>
        rw [show off + 2 * (i + 1) = off + 2 + 2 * i by ring]
        exact b i w (by simpa using hw)

theorem readValues_step (n off : Nat) (s : State) (hp : s.present = true) (hr : off + 2 * n ≤ s.cap)
    (k : List Word16 → State → SeqResult) :
    ∃ t, readValues n off s k =
      k ((List.range n).map fun i => be16Dec (readByte s (off + 2 * i)) (readByte s (off + 2 * i + 1))) t ∧
      SameMessage s t := by
  induction n generalizing off s k with
  | zero => exact ⟨s, rfl, rfl, rfl, rfl, fun _ => rfl⟩
  | succ n ih =>
    have hc := s.cap_le
    have ho := toNat_ofNat_offset (n := off) (by omega)
    obtain ⟨t1, e1, m1⟩ := fetchWord16_step (off := BitVec.ofNat 16 off) (s := s) hp (by omega)
      (fun v s => readValues n (off + 2) s fun vs s => k (v :: vs) s)
    obtain ⟨t, e, m⟩ := ih (off + 2) t1 (m1.present.trans hp) (by rw [m1.cap]; omega)
      (fun vs s' => k (be16Dec (readByte s off) (readByte s (off + 1)) :: vs) s')
    refine ⟨t, ?_, m1.trans m⟩
    rw [readValues, e1, ho, e, List.range_succ_eq_map, List.map_cons, List.map_map]
    congr 2
    refine List.map_congr_left fun i _ => ?_
    simp only [Function.comp, m1.byte]
    rw [show off + 2 * (i + 1) = off + 2 + 2 * i by ring]

theorem putBytes_step (bs : List Byte) (off : Nat) (s : State) (hp : s.present = true)
    (hr : off + bs.length ≤ s.cap) (k : State → SeqResult) :
    ∃ t, putBytes bs off s k = k t ∧ t.present = true ∧ t.len = s.len ∧ t.cfg = s.cfg ∧
      (∀ a, a < off ∨ off + bs.length ≤ a → readByte t a = readByte s a) ∧
      ∀ i b, bs[i]? = some b → readByte t (off + i) = b := by
  induction bs generalizing off s with
  | nil => exact ⟨s, rfl, hp, rfl, rfl, fun _ _ => rfl, by simp⟩
  | cons v vs ih =>
    have hc := s.cap_le
    simp only [List.length_cons] at hr ⊢
    have ho := toNat_ofNat_offset (n := off) (by omega)
    obtain ⟨t1, e1, p1, l1, c1, -, b1⟩ := issue_putb_step (off := BitVec.ofNat 16 off) (b := v) (s := s) hp
      (by omega) (fun s => putBytes vs (off + 1) s k)
    obtain ⟨t, e, p, l, c, f, b⟩ := ih (off + 1) t1 p1 (by rw [cap_eq_of_cfg c1]; omega)
    rw [ho] at b1
    refine ⟨t, by rw [putBytes, e1, e], p, l.trans l1, c.trans c1, fun a ha => ?_, fun i w hw => ?_⟩
    · rw [f a (by omega), b1, if_neg (by omega)]
    · cases i with
      | zero =>
        obtain rfl : v = w := by simpa using hw
        rw [f _ (by omega), b1, if_pos (by omega)]
      | succ i =>
        rw [show off + (i + 1) = off + 1 + i by ring]
        exact b i w (by simpa using hw)

theorem getBytes_step (n off : Nat) (s : State) (hp : s.present = true) (hr : off + n ≤ s.cap)
    (k : List Byte → State → SeqResult) :
    ∃ t, getBytes n off s k = k ((List.range n).map fun i => readByte s (off + i)) t ∧ SameMessage s t := by
  induction n generalizing off s k with
  | zero => exact ⟨s, rfl, rfl, rfl, rfl, fun _ => rfl⟩
  | succ n ih =>
    have hc := s.cap_le
    have ho := toNat_ofNat_offset (n := off) (by omega)
    obtain ⟨t1, e1, m1⟩ := fetchByte_step (off := BitVec.ofNat 16 off) (s := s) hp (by omega)
      (fun b s => getBytes n (off + 1) s fun bs s => k (b :: bs) s)
    obtain ⟨t, e, m⟩ := ih (off + 1) t1 (m1.present.trans hp) (by rw [m1.cap]; omega)
      (fun bs s' => k (readByte s off :: bs) s')
    refine ⟨t, ?_, m1.trans m⟩
    rw [getBytes, e1, ho, e, List.range_succ_eq_map, List.map_cons, List.map_map]
    congr 2
    refine List.map_congr_left fun i _ => ?_
    simp only [Function.comp, m1.byte]
    rw [show off + (i + 1) = off + 1 + i by ring]

/-- A function decode that ends OK hands its function code on. -/
theorem withFunction_ok {s : State} {e : SeqEnd} {fn : Byte} (h : decodeFunction s = .next e) (ho : e.outcome = 0#8)
    (hf : e.outputs.fn = some fn) (k : Byte → State → SeqResult) : withFunction s k = k fn e.state := by
  simp [withFunction, h, ho, hf, Code.value]

/-- A function decode that does not end OK is the result, without an output (R197). -/
theorem withFunction_bad {s : State} {e : SeqEnd} (h : decodeFunction s = .next e) (ho : e.outcome ≠ 0#8)
    (k : Byte → State → SeqResult) : withFunction s k = .next ⟨e.outcome, {}, e.state⟩ := by
  simp [withFunction, h, ho, Code.value]

end Sys2Proof.Machine
end

