-- ==== Sys2Proof/Tests/Slice0.lean ====
section
/-! SUPPORT. Small tests with expected results from 95_test_vectors.md (each names its vector), the well-formedness smoke
test, a written-out word for every command, and for every obligation with hypotheses a witness that meets them. -/

namespace Sys2Proof.Tests

open Sys2Proof Sys2Proof.Machine

/-! ### Helpers -/

/-- A present message of length `len` whose first bytes are `bytes`, in the default block (`CAP = 256`). -/
def message (len : Nat) (bytes : List Byte) : State :=
  { State.reset with present := true, len := BitVec.ofNat 16 len, msg := Memory.insertAll [] 0 bytes }

/-- A command goes on, to a state of which `p` holds. -/
def after (i : Instr) (s : State) (p : State → Bool) : Bool :=
  match exec i s with
  | .next t => p t
  | .fault _ | .refused _ => false

/-- A host sequence ends with an outcome and outputs. -/
def ends (r : SeqResult) (outcome : Byte) (o : Outputs) : Bool :=
  match r with
  | .next e => e.outcome == outcome && e.outputs == o
  | .fault _ | .refused _ => false

/-- The word that a listing line assembles to. -/
def wordOf (line : String) : Option CommandWord :=
  match assembleLine line.toList with
  | .ok w => w
  | .error _ => none

/-! ### Well-formedness (44_buffer_control.md R176) -/

theorem test_wellFormed_refuses_register_7 : Instr.WellFormed (.rdreg 7#16) = false := by decide
theorem test_wellFormed_refuses_register_65535 : Instr.WellFormed (.rdreg 0xFFFF#16) = false := by decide
theorem test_wellFormed_accepts_register_6 : Instr.WellFormed (.rdreg 6#16) = true := by decide

/-! ### Decoding: a word written out from R81, R82, R84 for every command, and illegal words (V-E-1 to V-E-9, V-P-11) -/

theorem test_decode_msgnew : decodeTableWord 64 0xA000000000000000 = some .msgnew := by decide
theorem test_decode_msgdrop : decodeTableWord 64 0xA100000000000000 = some .msgdrop := by decide
theorem test_decode_setlen : decodeTableWord 64 0xA200010100000000 = some (.setlen 257#16) := by decide
theorem test_decode_shrink : decodeTableWord 64 0xA300000900000000 = some (.shrink 9#16) := by decide
theorem test_decode_putb : decodeTableWord 64 0xA4000007000000EA = some (.putb 7#16 0xEA#8) := by decide
theorem test_decode_getb : decodeTableWord 64 0xA500010000000000 = some (.getb 256#16) := by decide
theorem test_decode_rdreg : decodeTableWord 64 0xA600000600000000 = some (.rdreg 6#16) := by decide
theorem test_decode_wrbe16 : decodeTableWord 64 0xB00000FE00001234 = some (.wrbe16 254#16 0x1234#16) := by decide
theorem test_decode_rdbe16 : decodeTableWord 64 0xB100000400000000 = some (.rdbe16 4#16) := by decide
theorem test_decode_crcapply : decodeTableWord 64 0xC000000000000000 = some .crcapply := by decide
theorem test_decode_crccheck : decodeTableWord 64 0xC100000000000000 = some .crccheck := by decide
theorem test_decode_fpack : decodeTableWord 64 0xF0000007C2C88000 = some (.fpack 7#16 0xC2C88000#32) := by decide
theorem test_decode_funpack : decodeTableWord 64 0xF100000300000000 = some (.funpack 3#16) := by decide

/-- V-E-1 to V-E-7, V-B-13, V-P-11. -/
theorem test_decode_refuses_illegal_words :
    [0x0000000000000000, 0xA001000000000000, 0xA400000000000100, 0xC000000000000001, 0xA000000100000000,
      0x0300000000000000, 0x0600000000000000, 0x1000000000000000, 0xF0FFFFFFFFFFFFFF, 0xA600000700000000,
      0xB000000200011234].map (decodeTableWord 64) = List.replicate 11 none := by decide

/-- "No two rows share an OPC" (R85), and the table has thirteen rows (R87). -/
theorem test_opcodes_are_distinct : (opcodeTable.map Row.opc).Pairwise (· ≠ ·) ∧ opcodeTable.length = 13 := by decide

/-- The lines of R91. -/
theorem test_assemble_lines_of_the_spec :
    ["MSGNEW", "SETLEN 8", "PUTB 1, 0x06", "WRBE16 2, 0x1234", "RDBE16 4", "FPACK 3, 0x3F800000 ; 1.0",
      "RDREG STATUS"].map wordOf =
    [some 0xA000000000000000#64, some 0xA200000800000000#64, some 0xA400000100000006#64, some 0xB000000200001234#64,
      some 0xB100000400000000#64, some 0xF00000033F800000#64, some 0xA600000200000000#64] := by decide +kernel

/-- Lines that R90 rejects: an operand too wide, a register name elsewhere, an unknown mnemonic; and a line with an operand
missing (notes/assumptions 18). -/
theorem test_assembler_rejects :
    ["PUTB 0, 256", "SETLEN 65536", "GETB LEN", "PUTB 0", "NOP"].map wordOf = [none, none, none, none, none] := by
  decide +kernel

/-! ### Buffer control (V-B) -/

/-- V-B-8. -/
theorem test_msgnew_after_reset :
    after .msgnew State.reset (fun t => t.present && t.len == 0#16 && t.status == 0x00#8) = true := by decide

/-- V-B-9: the bytes of the old message are gone (nothing is listed any more). -/
theorem test_msgnew_forgets_bytes :
    after .msgnew (message 8 [1#8, 2#8]) (fun t => t.msg == [] && t.draws == 1 && t.len == 0#16) = true := by decide

/-- V-B-10. -/
theorem test_msgdrop : after .msgdrop (message 8 []) (fun t => !t.present && t.len == 0#16 && t.status == 0x00#8) = true := by
  decide

/-- V-B-1, V-B-2. -/
theorem test_setlen_at_capacity : after (.setlen 256#16) (message 0 []) (fun t => t.len == 256#16 && t.status == 0#8) = true := by
  decide
theorem test_setlen_beyond_capacity :
    after (.setlen 257#16) (message 0 []) (fun t => t.len == 0#16 && t.status == 0x02#8) = true := by decide

/-- V-B-3, V-B-4. -/
theorem test_shrink : after (.shrink 9#16) (message 11 []) (fun t => t.len == 9#16 && t.status == 0x00#8) = true := by decide
theorem test_shrink_cannot_grow :
    after (.shrink 10#16) (message 9 []) (fun t => t.len == 9#16 && t.status == 0x06#8) = true := by decide

/-- V-B-11, and the frame of PUTB: the next byte is the one written before. -/
theorem test_putb_last_byte : after (.putb 255#16 0xAA#8) (message 0 []) (fun t => readByte t 255 == 0xAA#8) = true := by
  decide
theorem test_putb_frame :
    after (.putb 1#16 0x83#8) (message 0 [1#8, 2#8, 3#8]) (fun t => readBytes t 0 3 == [1#8, 0x83#8, 3#8]) = true := by
  decide

/-- V-B-7 (`GETB 0`), V-B-12. -/
theorem test_getb_absent :
    after (.getb 0#16) { State.reset with res := 5#32 } (fun t => t.res == 5#32 && t.status == 0x01#8) = true := by decide
theorem test_getb_out_of_range :
    after (.getb 256#16) (message 0 []) (fun t => t.res == 0#32 && t.status == 0x07#8) = true := by decide

/-- V-B-15. -/
theorem test_rdreg_after_reset :
    [Reg.ctrl, .len, .status, .res, .crcr, .csum, .capr].map (readReg State.reset) =
      [0#32, 0#32, 0#32, 0#32, 0x0000FFFF#32, 0x0000FFFF#32, 0x00000100#32] := by decide

/-- V-B-14. -/
theorem test_rdreg_status_leaves_status :
    after (.rdreg 2#16) { State.reset with status := 0x06#8 } (fun t => t.out == some 6#32 && t.status == 0x06#8) = true := by
  decide

/-! ### Byte packing (V-P) -/

/-- V-P-3, V-P-5. -/
theorem test_wrbe16_odd_offset :
    after (.wrbe16 7#16 0xFF00#16) (message 0 []) (fun t => readBytes t 7 2 == [0xFF#8, 0x00#8]) = true := by decide
theorem test_wrbe16_out_of_range :
    after (.wrbe16 255#16 0x1234#16) (message 0 []) (fun t => t.msg == [] && t.status == 0x07#8) = true := by decide

/-- V-P-7, V-P-9. -/
theorem test_rdbe16 :
    after (.rdbe16 4#16) (message 0 [0#8, 0#8, 0#8, 0#8, 0xAB#8, 0xCD#8]) (fun t => t.res == 0x0000ABCD#32) = true := by
  decide
theorem test_rdbe16_absent :
    after (.rdbe16 4#16) { State.reset with res := 0x12345678#32 } (fun t => t.res == 0#32 && t.status == 0x01#8) = true := by
  decide

/-! ### Checksum (V-CRC) -/

/-- R122, V-CRC-3. -/
theorem test_crcByte_trace : crcByte 0xFFFF#16 0x01#8 = 0x807E#16 := by decide +kernel

/-- V-CRC-5. -/
theorem test_crc16_check_value :
    crc16 [0x31#8, 0x32#8, 0x33#8, 0x34#8, 0x35#8, 0x36#8, 0x37#8, 0x38#8, 0x39#8] = 0x4B37#16 := by decide +kernel

/-- The frame of V-CRC-10, V-CRC-11. -/
def frame : List Byte := [0x01#8, 0x06#8, 0x12#8, 0x34#8, 0xAB#8, 0xCD#8, 0x73#8, 0xD9#8]

/-- V-CRC-10. -/
theorem test_crcapply_stores_low_byte_first :
    after .crcapply (message 8 (frame.take 6)) (fun t => readBytes t 0 8 == frame && t.crcr == 0xD973#16) = true := by
  decide +kernel

/-- V-CRC-14. -/
theorem test_crcapply_too_short :
    after .crcapply (message 1 []) (fun t => t.status == 0x06#8 && t.crcr == 0xFFFF#16) = true := by decide

/-- V-CRC-11. -/
theorem test_crccheck_good : after .crccheck (message 8 frame) (fun t => t.status == 0#8 && t.crcr == 0xD973#16) = true := by
  decide +kernel

/-- V-CRC-12: the two checksum bytes exchanged. -/
theorem test_crccheck_exchanged_bytes :
    after .crccheck (message 8 (frame.take 6 ++ [0xD9#8, 0x73#8])) (fun t => t.status == 0x04#8 && t.crcr == 0xD973#16) =
      true := by decide +kernel

/-! ### Float codec (V-F) -/

/-- V-F-2. -/
theorem test_fpack_minus_100_25 :
    after (.fpack 7#16 0xC2C88000#32) (message 0 [])
      (fun t => readBytes t 7 4 == [0x80#8, 0x00#8, 0xC2#8, 0xC8#8]) = true := by decide +kernel

/-- V-F-9, V-F-10, from the source's formulas of R142 (`be`, `m` of the vectors). -/
theorem test_packFormula :
    packNormal 0x7F7FFFFF#32 = packFormula false 254 0xFFFFFF ∧ packNormal 0x00800000#32 = packFormula false 1 0x800000 ∧
      packNormal 0xC2C88000#32 = packFormula true 133 0xC88000 := by decide +kernel

/-- V-F-20, V-F-21, V-F-22, V-F-26, V-F-27. -/
theorem test_unpack_corners :
    [unpack ⟨0x00#8, 0x00#8, 0x00#8, 0x00#8⟩, unpack ⟨0x00#8, 0x00#8, 0x80#8, 0x00#8⟩,
      unpack ⟨0x00#8, 0x02#8, 0x00#8, 0x00#8⟩, unpack ⟨0x00#8, 0x00#8, 0x00#8, 0x80#8⟩,
      unpack ⟨0xFF#8, 0xFF#8, 0x7F#8, 0x7F#8⟩] =
    [0x00400000#32, 0x80400000#32, 0x00400001#32, 0x00800000#32, 0x7F7FFFFF#32] := by decide +kernel

/-- V-F-23, V-F-24: the classes that go to the parameter. -/
theorem test_unpack_open_classes :
    unpack ⟨0x00#8, 0x01#8, 0x00#8, 0x00#8⟩ = Config.funpackNonexact ⟨0x00#8, 0x01#8, 0x00#8, 0x00#8⟩ ∧
      unpack ⟨0x00#8, 0x00#8, 0x7F#8, 0x80#8⟩ = Config.funpackNonexact ⟨0x00#8, 0x00#8, 0x7F#8, 0x80#8⟩ := ⟨rfl, rfl⟩

/-! ### Step -/

/-- A word placed by `withFetchWord` is the next step (V-P-1). -/
theorem test_step_runs_the_fetched_word :
    (match step ((message 0 []).withFetchWord 64 0xB000000200001234) with
      | .next t => readBytes t 2 2 == [0x12#8, 0x34#8] && t.pending == []
      | .fault _ | .refused _ => false) = true := by decide

/-- An illegal word with no message gives 07, not 01 (2.5). -/
theorem test_step_illegal_word_before_presence :
    (match step (State.reset.withFetchWord 64 0xA001000000000000) with
      | .next t => t.status == 0x07#8
      | .fault _ | .refused _ => false) = true := by decide

/-! ### Host sequences (V-H) -/

/-- V-H-4. -/
theorem test_decodeFunction_device_error :
    ends (decodeFunction (message 5 [0x01#8, 0x83#8, 0x02#8, 0xC0#8, 0xF1#8])) 0x82#8 { fn := some 0x03#8 } = true := by
  decide +kernel

/-- V-H-2. -/
theorem test_parseReadWords_more_than_requested :
    ends (parseReadWords 2 (message 11
      [0x01#8, 0x03#8, 0x06#8, 0x11#8, 0x22#8, 0x33#8, 0x44#8, 0x55#8, 0x66#8, 0x2A#8, 0x18#8])) 0x03#8
      { actualCount := some 3, values := [0x1122#16, 0x3344#16] } = true := by decide +kernel

/-- V-H-9, V-H-10. -/
theorem test_parseReadWords_refuses :
    ends (parseReadWords 2 (message 8 frame)) 0x04#8 {} = true ∧
      ends (parseReadWords 2 (message 9 [0x01#8, 0x03#8, 0xFF#8])) 0x06#8 {} = true := by decide +kernel

/-- The response of V-H-3, whose byte count is odd and whose checksum is correct. -/
def oddCount : State := message 8 [0x01#8, 0x03#8, 0x03#8, 0x11#8, 0x22#8, 0x33#8, 0x4D#8, 0x3E#8]

/-- V-H-3. -/
theorem test_parseReadWords_odd_byte_count :
    ends (parseReadWords 2 oddCount) 0x04#8 {} = true := by decide +kernel

/-- R203: byte `i` goes to offset `i`, and the length is their count. -/
theorem test_receive_keeps_the_order :
    (match receive [0x01#8, 0x83#8, 0x02#8] (message 8 frame) with
      | .next e => readBytes e.state 0 4 == [0x01#8, 0x83#8, 0x02#8, 0x34#8] && e.state.len == 3#16
      | .fault _ | .refused _ => false) = true := by decide

/-- V-H-6. -/
theorem test_parseWriteWords :
    ends (parseWriteWords (message 8 [0x01#8, 0x10#8, 0x00#8, 0x10#8, 0x00#8, 0x02#8, 0x40#8, 0x0D#8])) 0x00#8
      { address := some 0x0010#16, actualCount := some 2 } = true := by decide +kernel

/-! ### Witnesses: for each obligation with hypotheses, concrete inputs that meet all of them, clause by clause -/

/-- A present message of 8 bytes, and the same block after MSGDROP. -/
def present8 : State := message 8 frame

/-- No message, with a stale `RES`. -/
def absent : State := { State.reset with res := 0x12345678#32 }

/-- A message longer than the buffer: no run reaches it (R24). -/
def tooLong : State := message 257 []

theorem witness_DecodeOfEncodeIsTheCommand : Instr.WellFormed (.rdreg 6#16) = true := by decide

theorem witness_EncodeOfDecodeIsTheWord : decode 0xA4000007000000EA#64 = .ok (.putb 7#16 0xEA#8) := rfl

/-- An RDREG word of index 6, one of index 7, and a word that matches no row. -/
theorem witness_DecodeAcceptsExactlyTheTableRows :
    (∃ row ∈ opcodeTable, 0xA600000600000000#64 &&& row.mask = row.matchWord ∧ row.opc = 0xA6#8 ∧
      (aField 0xA600000600000000#64).toNat ≤ 6) ∧
    (∃ row ∈ opcodeTable, 0xA600000700000000#64 &&& row.mask = row.matchWord ∧ row.opc = 0xA6#8 ∧
      6 < (aField 0xA600000700000000#64).toNat) ∧
    ∀ row ∈ opcodeTable, 0xA001000000000000#64 &&& row.mask ≠ row.matchWord := by decide

/-- A row of each shape: MSGNEW; RDREG and SETLEN; PUTB, WRBE16 and FPACK, with the largest number that fits each field and
the smallest that does not. -/
theorem witness_AssemblerAcceptsExactlyTheOperandsThatFit :
    (∃ row ∈ opcodeTable, row.mnemonic = "MSGNEW" ∧ row.format = .Z) ∧
    (∃ row ∈ opcodeTable, row.mnemonic = "RDREG" ∧ row.format = .A ∧ row.opc = 0xA6#8) ∧
    (∃ row ∈ opcodeTable, row.mnemonic = "SETLEN" ∧ row.format = .A ∧ row.opc ≠ 0xA6#8) ∧
    (∃ row ∈ opcodeTable, row.mnemonic = "PUTB" ∧ Format.dataBits row.format = some 8) ∧
    (∃ row ∈ opcodeTable, row.mnemonic = "WRBE16" ∧ Format.dataBits row.format = some 16) ∧
    (∃ row ∈ opcodeTable, row.mnemonic = "FPACK" ∧ Format.dataBits row.format = some 32) ∧
    65535 < 65536 ∧ 65536 ≤ 65536 ∧ 255 < 2 ^ 8 ∧ 2 ^ 8 ≤ 256 ∧ 65535 < 2 ^ 16 ∧ 2 ^ 16 ≤ 65536 ∧
    4294967295 < 2 ^ 32 ∧ 2 ^ 32 ≤ 4294967296 := by decide

theorem witness_StepExecutesTheDecodedCommand :
    ({ absent with pending := [.command 0xA000000000000000#64, .reset] } : State).pending =
      .command 0xA000000000000000#64 :: [.reset] ∧ decode 0xA000000000000000#64 = .ok .msgnew := ⟨rfl, rfl⟩

/-- One word for each way to be illegal. -/
theorem witness_IllegalWordChangesOnlyTheStatus :
    ({ absent with pending := [.command 0#64] } : State).pending = [.command 0#64] ∧
    decode 0#64 = .error (.unassignedOpcode 0x00#8) ∧
    decode 0xA001000000000000#64 = .error (.mustBeZeroBitSet 0xA001000000000000#64) ∧
    decode 0xA600000700000000#64 = .error (.noSuchRegister 7#16) := ⟨rfl, rfl, rfl, rfl⟩

theorem witness_BlockIsPassiveBetweenHostSteps : present8.pending = [] := rfl

theorem witness_ResetStepGivesTheResetValues :
    ({ present8 with pending := [.reset] } : State).pending = .reset :: [] := rfl

theorem present8_inv : present8.Inv := ⟨by decide, by decide, by decide, by decide⟩

/-- A state with a message in it that meets the invariant, and takes a step. -/
theorem witness_EveryStepKeepsTheInvariant :
    ({ present8 with pending := [.command 0xA400000100000006#64] } : State).Inv ∧
    ∃ t, step { present8 with pending := [.command 0xA400000100000006#64] } = .next t :=
  ⟨⟨by decide, by decide, by decide, by decide⟩, _, rfl⟩

theorem witness_EveryRunIsSafe : ({ present8 with pending := [.reset, .command 0#64] } : State).Inv :=
  ⟨by decide, by decide, by decide, by decide⟩

theorem witness_NoStepChangesTheCapacity : ∃ t, step { present8 with pending := [.reset] } = .next t := ⟨_, rfl⟩

/-- A PUTB meets every clause at a byte beside the one it stores to; the premises about a legal RDREG are met by one. -/
theorem witness_CommandsWriteOnlyWhatTheTableLists :
    (∃ t, exec (.putb 1#16 0x83#8) present8 = .next t) ∧ writesPresent (.putb 1#16 0x83#8) = false ∧
    writesLen (.putb 1#16 0x83#8) = false ∧ writesRes (.putb 1#16 0x83#8) = false ∧
    writesCrcr (.putb 1#16 0x83#8) = false ∧ ¬ storesTo (.putb 1#16 0x83#8) present8 2 ∧
    ¬ storesTo (.putb 1#16 0x83#8) present8 0 ∧
    (∃ t, exec (.rdreg 6#16) present8 = .next t) ∧ isLegalRdreg (.rdreg 6#16) = true :=
  ⟨⟨_, rfl⟩, rfl, rfl, rfl, rfl, by unfold storesTo; decide, by unfold storesTo; decide, ⟨_, rfl⟩, rfl⟩

theorem witness_ByteChangesOnlyByStoreMsgnewOrReset :
    ∃ t, step { present8 with pending := [.command 0xA400000100000083#64] } = .next t ∧
      readByte t 1 ≠ readByte { present8 with pending := [.command 0xA400000100000083#64] } 1 :=
  ⟨_, rfl, by decide⟩

/-- A faulting read of an absent message, and a CRCCHECK that fails. -/
theorem witness_FaultChangesOnlyTheStatus :
    (∃ t, exec (.rdbe16 0#16) absent = .next t ∧ isLegalRdreg (.rdbe16 0#16) = false ∧ t.status ≠ 0x00#8 ∧
      t.res ≠ absent.res) ∧
    after .crccheck (message 2 [0xFE#8, 0xFF#8]) (fun t => t.status != 0x00#8) = true ∧
    after .crccheck { message 2 [0xFE#8, 0xFF#8] with crcr := 0#16 } (fun t => t.crcr != 0#16) = true :=
  ⟨⟨_, rfl, rfl, by decide, by decide⟩, by decide +kernel, by decide +kernel⟩

theorem witness_EveryOtherCommandWritesAProducedStatus :
    (∃ t, exec (.rdreg 7#16) present8 = .next t) ∧ isLegalRdreg (.rdreg 7#16) = false := ⟨⟨_, rfl⟩, by decide⟩

/-- An absent message with operands that would fail the later checks too. -/
theorem witness_AbsentMessageIsReportedBeforeTheOperands :
    absent.present = false ∧ needsMessage (.rdbe16 0xFFFF#16) = true ∧ needsMessage (.funpack 0xFFFF#16) = true ∧
    needsMessage (.setlen 0xFFFF#16) = true ∧ ∀ off, Instr.setlen 0xFFFF#16 ≠ .rdbe16 off ∧
      Instr.setlen 0xFFFF#16 ≠ .funpack off :=
  ⟨rfl, rfl, rfl, rfl, fun _ => ⟨nofun, nofun⟩⟩

/-- The last offset in range and the first out of range. -/
theorem witness_RangeCheckIsAgainstTheCapacity :
    0 < (accessRange (.fpack 252#16 0#32)).2 ∧ present8.present = true ∧
    (accessRange (.fpack 252#16 0#32)).1 + (accessRange (.fpack 252#16 0#32)).2 ≤ present8.cap ∧
    present8.cap < (accessRange (.fpack 253#16 0#32)).1 + (accessRange (.fpack 253#16 0#32)).2 := by decide

/-- A state where CRCAPPLY stops, and one where no fault is answered. -/
theorem witness_CommandsStopOnlyOnALengthBeyondTheCapacity :
    (tooLong.present = true ∧ tooLong.cap < tooLong.len.toNat ∧ 2 ≤ tooLong.len.toNat) ∧
    ∀ off n, exec .msgdrop tooLong ≠ .fault (.outsideMsg off n) := ⟨by decide, nofun⟩

theorem witness_DroppedMessageCannotBeRead : Instr.getb 0#16 ≠ .msgnew ∧ absent.present = false := ⟨nofun, rfl⟩

theorem witness_LengthGrowsOnlyBySetlen :
    ∃ t, exec (.setlen 256#16) present8 = .next t ∧ present8.len.toNat < t.len.toNat := ⟨_, rfl, by decide⟩

/-- No message; `n = CAP + 1`; `n = CAP`. -/
theorem witness_SetlenSetsTheLengthWithinCapacity :
    absent.present = false ∧ present8.present = true ∧ present8.cap < (257#16).toNat ∧ (256#16).toNat ≤ present8.cap := by
  decide

/-- No message; `n = LEN + 1`; `n = LEN`. -/
theorem witness_ShrinkOnlyLowersTheLength :
    absent.present = false ∧ present8.present = true ∧ present8.len.toNat < (9#16).toNat ∧
    (8#16).toNat ≤ present8.len.toNat := by decide

/-- No message; `off = CAP`; `off = CAP - 1`. The same for GETB. -/
theorem witness_PutbStoresOneByte :
    absent.present = false ∧ present8.present = true ∧ present8.cap < (256#16).toNat + 1 ∧
    (255#16).toNat + 1 ≤ present8.cap ∧ 254 ≠ (255#16).toNat := by decide

theorem witness_GetbLoadsOneByte :
    absent.present = false ∧ present8.present = true ∧ present8.cap < (256#16).toNat + 1 ∧
    (255#16).toNat + 1 ≤ present8.cap := by decide

theorem witness_RdregReturnsTheRegister : 6 < (7#16).toNat := by decide

/-- No message; `off = CAP - 1`; `off = CAP - 2`. The same for RDBE16. -/
theorem witness_Wrbe16StoresBigEndian :
    absent.present = false ∧ present8.present = true ∧ present8.cap < (255#16).toNat + 2 ∧
    (254#16).toNat + 2 ≤ present8.cap ∧ 253 ≠ (254#16).toNat ∧ 253 ≠ (254#16).toNat + 1 := by decide

theorem witness_Rdbe16LoadsBigEndian :
    absent.present = false ∧ present8.present = true ∧ present8.cap < (255#16).toNat + 2 ∧
    (254#16).toNat + 2 ≤ present8.cap := by decide

/-- No message; `LEN = 1`; `LEN = 2`; `LEN = CAP`; `LEN = CAP + 1`. -/
theorem witness_CrcapplyStoresTheChecksum :
    absent.present = false ∧ (message 1 []).present = true ∧ (message 1 []).len.toNat < 2 ∧
    (message 2 []).present = true ∧ 2 ≤ (message 2 []).len.toNat ∧ (message 2 []).len.toNat ≤ (message 2 []).cap ∧
    2 ≤ (message 256 []).len.toNat ∧ (message 256 []).len.toNat ≤ (message 256 []).cap ∧
    tooLong.present = true ∧ tooLong.cap < tooLong.len.toNat := by decide

/-- V-CRC-13: a two-byte message that verifies, and one that does not. -/
theorem witness_CrccheckVerifiesTheChecksum :
    (message 2 [0xFF#8, 0xFF#8]).present = true ∧ 2 ≤ (message 2 [0xFF#8, 0xFF#8]).len.toNat ∧
    (message 2 [0xFF#8, 0xFF#8]).len.toNat ≤ (message 2 [0xFF#8, 0xFF#8]).cap ∧
    (readByte (message 2 [0xFF#8, 0xFF#8]) 0 = (crc16 []).extractLsb' 0 8 ∧
      readByte (message 2 [0xFF#8, 0xFF#8]) 1 = (crc16 []).extractLsb' 8 8) ∧
    ¬ (readByte (message 2 [0xFF#8, 0xFE#8]) 0 = (crc16 []).extractLsb' 0 8 ∧
      readByte (message 2 [0xFF#8, 0xFE#8]) 1 = (crc16 []).extractLsb' 8 8) ∧
    tooLong.present = true ∧ tooLong.cap < tooLong.len.toNat := by decide +kernel

theorem witness_CrcFoldsTheByteStep : (0xFFFE#16).getLsbD 0 = false ∧ (0x0001#16).getLsbD 0 = true := by decide

theorem witness_AppliedChecksumAlwaysVerifies :
    present8.present = true ∧ 2 ≤ (2#16).toNat ∧ (2#16).toNat ≤ present8.cap ∧ 2 ≤ (256#16).toNat ∧
    (256#16).toNat ≤ present8.cap := by decide

/-- The last bit of the last covered byte. -/
theorem witness_SingleBitFlipNeverVerifies :
    present8.present = true ∧ 2 ≤ present8.len.toNat ∧ present8.len.toNat ≤ present8.cap ∧
    (5#16).toNat < present8.len.toNat - 2 ∧ 7 < 8 := by decide

/-- Two messages that differ at the first offset beyond the length only. -/
theorem witness_VerificationIgnoresBytesBeyondTheLength :
    (message 2 [1#8, 2#8, 4#8]).present = (message 2 [1#8, 2#8, 3#8]).present ∧
    (message 2 [1#8, 2#8, 4#8]).len = (message 2 [1#8, 2#8, 3#8]).len ∧
    (message 2 [1#8, 2#8, 4#8]).cfg = (message 2 [1#8, 2#8, 3#8]).cfg ∧
    (message 2 [1#8, 2#8, 4#8]).crcr = (message 2 [1#8, 2#8, 3#8]).crcr ∧
    (∀ a, a < (message 2 [1#8, 2#8, 3#8]).len.toNat →
      readByte (message 2 [1#8, 2#8, 4#8]) a = readByte (message 2 [1#8, 2#8, 3#8]) a) ∧
    after .crccheck (message 2 [1#8, 2#8, 3#8]) (fun _ => true) = true := by decide +kernel

/-- No message; `off = CAP - 3`; `off = CAP - 4`; operands with exponent fields 1, 254, 0, 255. -/
theorem witness_FpackStoresThePackedFloat :
    absent.present = false ∧ present8.present = true ∧ present8.cap < (253#16).toNat + 4 ∧
    (252#16).toNat + 4 ≤ present8.cap ∧ 1 ≤ ((0x00800000#32).extractLsb' 23 8).toNat ∧
    ((0x7F7FFFFF#32).extractLsb' 23 8).toNat ≤ 254 ∧ (0x80000000#32).extractLsb' 23 8 = 0x00#8 ∧
    (0x7F800000#32).extractLsb' 23 8 = 0xFF#8 := by decide

/-- V-F-26, V-F-27, V-F-21, V-F-23, V-F-24: bytes of every class of R152. -/
theorem witness_FunpackDecodesThePackedFloat :
    absent.present = false ∧ present8.present = true ∧ present8.cap < (253#16).toNat + 4 ∧
    (252#16).toNat + 4 ≤ present8.cap ∧ packedExp ⟨0x00#8, 0x00#8, 0x00#8, 0x80#8⟩ = 1 ∧
    packedExp ⟨0xFF#8, 0xFF#8, 0x7F#8, 0x7F#8⟩ = 254 ∧
    packedExp ⟨0x00#8, 0x00#8, 0x80#8, 0x00#8⟩ = 0 ∧ packedMantissa ⟨0x00#8, 0x00#8, 0x80#8, 0x00#8⟩ % 2 = 0 ∧
    packedExp ⟨0x00#8, 0x01#8, 0x00#8, 0x00#8⟩ = 0 ∧ packedMantissa ⟨0x00#8, 0x01#8, 0x00#8, 0x00#8⟩ % 2 = 1 ∧
    packedExp ⟨0x00#8, 0x00#8, 0x7F#8, 0x80#8⟩ = 255 := by decide

/-- The frame of V-H-1 with its two checksum bytes exchanged. -/
def exchangedOne : State := message 9 [0x01#8, 0x03#8, 0x04#8, 0x00#8, 0x00#8, 0x3F#8, 0x80#8, 0x63#8, 0xEA#8]

/-- A message that holds the packed float 1.0 at offset 3 (V-F-1). -/
def holdsOne : State := message 9 [0x01#8, 0x03#8, 0x04#8, 0x00#8, 0x00#8, 0x3F#8, 0x80#8, 0xEA#8, 0x63#8]

/-- No message; the bytes of V-F-26 (`be = 1`) and of V-F-27 (`be = 254`), at the last offset in range and at 0. -/
theorem witness_FunpackGivesANaNWhenAbsentAndANormalForBe1To254 :
    absent.present = false ∧
    (message 0 (List.replicate 252 0#8 ++ [0x00#8, 0x00#8, 0x00#8, 0x80#8])).present = true ∧
    (252#16).toNat + 4 ≤ (message 0 (List.replicate 252 0#8 ++ [0x00#8, 0x00#8, 0x00#8, 0x80#8])).cap ∧
    packedExp (packedAt (message 0 (List.replicate 252 0#8 ++ [0x00#8, 0x00#8, 0x00#8, 0x80#8])) (252#16).toNat) = 1 ∧
    (message 0 [0xFF#8, 0xFF#8, 0x7F#8, 0x7F#8]).present = true ∧
    (0#16).toNat + 4 ≤ (message 0 [0xFF#8, 0xFF#8, 0x7F#8, 0x7F#8]).cap ∧
    packedExp (packedAt (message 0 [0xFF#8, 0xFF#8, 0x7F#8, 0x7F#8]) (0#16).toNat) = 254 := by decide +kernel

theorem witness_FloatRoundTripIsExact :
    present8.present = true ∧ (252#16).toNat + 4 ≤ present8.cap ∧ isNormal 0x00800000#32 = true ∧
    isNormal 0xFF7FFFFF#32 = true := by decide

theorem witness_PackedRoundTripRewritesTheSameBytes :
    holdsOne.present = true ∧ (3#16).toNat + 4 ≤ holdsOne.cap ∧ 1 ≤ packedExp (packedAt holdsOne (3#16).toNat) ∧
    packedExp (packedAt holdsOne (3#16).toNat) ≤ 254 := by decide

/-- 1.0 is `0.5 x 2^1` (R146). -/
theorem witness_FpackFollowsTheSourceEncoding :
    isNormal 0x3F800000#32 = true ∧ floatValue 0x3F800000#32 = some 1 ∧ (1 / 2 : ℚ) ≤ 1 / 2 ∧ (1 / 2 : ℚ) < 1 ∧
    |(1 : ℚ)| = 1 / 2 * 2 ^ (1 : ℤ) := by
  refine ⟨by decide, ?_, by norm_num, by norm_num, by norm_num⟩
  have hn : isNormal 0x3F800000#32 = true := by decide
  have hs : (floatSign 0x3F800000#32 == 1#1) = false := by decide
  have he : (floatExp 0x3F800000#32).toNat = 127 := by decide
  have hf : (floatFrac 0x3F800000#32).toNat = 0 := by decide
  simp [floatValue, hn, hs, he, hf, signFactor]

theorem witness_FunpackResultIsTheExactValue :
    holdsOne.present = true ∧ (3#16).toNat + 4 ≤ holdsOne.cap ∧
    (1 ≤ packedExp (packedAt holdsOne (3#16).toNat) ∧ packedExp (packedAt holdsOne (3#16).toNat) ≤ 254) ∧
    packedExp (packedAt (message 0 [0#8, 2#8, 0#8, 0#8]) 0) = 0 ∧
    packedMantissa (packedAt (message 0 [0#8, 2#8, 0#8, 0#8]) 0) % 2 = 0 := by decide

/-- A WRBE16 at `CAP - 2` and a packed float at `CAP - 4`. -/
theorem witness_MixedWidthReadsSeeTheStoredBytes :
    present8.present = true ∧ (254#16).toNat + 2 ≤ present8.cap ∧ (252#16).toNat + 4 ≤ present8.cap ∧
    isNormal 0x00800000#32 = true ∧ isNormal 0xFF7FFFFF#32 = true := by decide

/-- No message; 81 words; 80 words in a block of 7 bytes; 80 words in a block of 8 bytes. -/
theorem witness_BuildReadWordsMakesTheFrame :
    absent.present = false ∧ present8.present = true ∧ 80 < (81#16).toNat ∧ (80#16).toNat ≤ 80 ∧
    ({ message 0 [] with cfg := ⟨7, by decide, by decide⟩ } : State).cap < 8 ∧
    8 ≤ ({ message 0 [] with cfg := ⟨8, by decide, by decide⟩ } : State).cap := by decide

theorem witness_WriteWordRequestParsesAsItsEcho :
    ({ message 0 [] with cfg := ⟨8, by decide, by decide⟩ } : State).present = true ∧
    8 ≤ ({ message 0 [] with cfg := ⟨8, by decide, by decide⟩ } : State).cap := by decide

/-- No message; 81 words; 80 words in a block of 168 bytes; S4: 80 words, the longest request, in a block of 169 bytes; no
words. -/
theorem witness_BuildWriteWordsMakesTheFrame :
    absent.present = false ∧ present8.present = true ∧ 80 < (81#16).toNat ∧
    (81#16).toNat ≤ (List.replicate 81 0xABCD#16).length ∧ (80#16).toNat ≤ 80 ∧
    (80#16).toNat ≤ (List.replicate 80 0xABCD#16).length ∧
    ({ message 0 [] with cfg := ⟨168, by decide, by decide⟩ } : State).present = true ∧
    ({ message 0 [] with cfg := ⟨168, by decide, by decide⟩ } : State).cap < 9 + 2 * (80#16).toNat ∧
    ({ message 0 [] with cfg := ⟨169, by decide, by decide⟩ } : State).present = true ∧
    9 + 2 * (80#16).toNat ≤ ({ message 0 [] with cfg := ⟨169, by decide, by decide⟩ } : State).cap ∧
    79 < (80#16).toNat ∧ (List.replicate 80 0xABCD#16)[79]? = some 0xABCD#16 ∧
    (0#16).toNat ≤ ([] : List Word16).length := by decide

/-- V-H-8, V-H-7, V-H-4, V-H-5 and a plain response. -/
theorem witness_DecodeFunctionReportsTheDevice :
    absent.present = false ∧ (message 1 [0x01#8]).present = true ∧ (message 1 [0x01#8]).len.toNat < 2 ∧
    (message 2 [0x01#8, 0x83#8]).len.toNat = 2 ∧ (readByte (message 2 [0x01#8, 0x83#8]) 1).getLsbD 7 = true ∧
    2 ≤ holdsOne.len.toNat ∧ holdsOne.len.toNat ≤ holdsOne.cap ∧ (readByte holdsOne 1).getLsbD 7 = false ∧
    3 ≤ (message 3 [0x01#8, 0x83#8, 0x02#8]).len.toNat ∧
    (readByte (message 3 [0x01#8, 0x83#8, 0x02#8]) 2).getLsbD 7 = false ∧
    (readByte (message 3 [0x01#8, 0x83#8, 0x82#8]) 2).getLsbD 7 = true := by decide

/-- V-H-1, with 2 words and with 1 word requested; V-H-3 is the odd byte count. -/
theorem witness_ParseReadWordsReadsTheVerifiedWords :
    holdsOne.present = true ∧ holdsOne.len.toNat ≤ holdsOne.cap ∧ 4 = (readByte holdsOne 2).toNat ∧
    4 + 5 ≤ holdsOne.len.toNat ∧ readByte holdsOne 1 = 0x03#8 ∧
    readByte holdsOne (4 + 3) = (crc16 (readBytes holdsOne 0 (4 + 3))).extractLsb' 0 8 ∧
    readByte holdsOne (4 + 4) = (crc16 (readBytes holdsOne 0 (4 + 3))).extractLsb' 8 8 ∧
    4 % 2 = 0 ∧ 4 / 2 ≤ 2 ∧ 1 < 4 / 2 := by decide +kernel

/-- V-H-3: it meets the hypotheses of the odd byte count here and in ParseReadWordsReportsWhatFails. -/
theorem witness_ParseReadWords_oddByteCount :
    oddCount.present = true ∧ oddCount.len.toNat ≤ oddCount.cap ∧ 3 = (readByte oddCount 2).toNat ∧
    3 ≤ oddCount.len.toNat ∧ 3 + 5 ≤ oddCount.len.toNat ∧ readByte oddCount 1 = 0x03#8 ∧
    readByte oddCount (3 + 3) = (crc16 (readBytes oddCount 0 (3 + 3))).extractLsb' 0 8 ∧
    readByte oddCount (3 + 4) = (crc16 (readBytes oddCount 0 (3 + 3))).extractLsb' 8 8 ∧ 3 % 2 = 1 := by decide +kernel

/-- No message; V-H-8; V-H-4; V-H-9; a message of two bytes; V-H-10; V-H-1 with its checksum bytes exchanged. -/
theorem witness_ParseReadWordsReportsWhatFails :
    absent.present = false ∧
    ((message 1 [0x01#8]).present = true ∧ (message 1 [0x01#8]).len.toNat ≤ (message 1 [0x01#8]).cap ∧
      (message 1 [0x01#8]).len.toNat < 2) ∧
    (2 ≤ (message 5 [0x01#8, 0x83#8, 0x02#8, 0xC0#8, 0xF1#8]).len.toNat ∧
      (readByte (message 5 [0x01#8, 0x83#8, 0x02#8, 0xC0#8, 0xF1#8]) 1).getLsbD 7 = true) ∧
    (2 ≤ present8.len.toNat ∧ (readByte present8 1).getLsbD 7 = false ∧ readByte present8 1 ≠ 0x03#8 ∧
      readByte present8 1 ≠ 0x04#8) ∧
    (readByte (message 2 [0x01#8, 0x03#8]) 1 = 0x03#8 ∧ (message 2 [0x01#8, 0x03#8]).len.toNat = 2) ∧
    (readByte (message 9 [0x01#8, 0x03#8, 0xFF#8]) 1 = 0x03#8 ∧ 3 ≤ (message 9 [0x01#8, 0x03#8, 0xFF#8]).len.toNat ∧
      (message 9 [0x01#8, 0x03#8, 0xFF#8]).len.toNat < (readByte (message 9 [0x01#8, 0x03#8, 0xFF#8]) 2).toNat + 5) := by
  decide

theorem witness_ParseReadWordsReportsWhatFails_checksum :
    4 = (readByte exchangedOne 2).toNat ∧ 3 ≤ exchangedOne.len.toNat ∧ 4 + 5 ≤ exchangedOne.len.toNat ∧
    exchangedOne.len.toNat ≤ exchangedOne.cap ∧ readByte exchangedOne 1 = 0x03#8 ∧
    ¬ (readByte exchangedOne (4 + 3) = (crc16 (readBytes exchangedOne 0 (4 + 3))).extractLsb' 0 8 ∧
      readByte exchangedOne (4 + 4) = (crc16 (readBytes exchangedOne 0 (4 + 3))).extractLsb' 8 8) := by decide +kernel

theorem witness_ReceivedBytesAreTransmittedBack :
    present8.present = true ∧ (List.replicate 256 0xAA#8).length ≤ present8.cap :=
  ⟨rfl, by rw [List.length_replicate]; decide⟩

end Sys2Proof.Tests
end

section
/-! The capacity is fixed (10_state.md R31): everything a step can do, and that none of it writes the configuration. -/

namespace Sys2Proof.Machine

/-- Everything a step can do when it goes on (R12, R88): nothing, with no host step waiting; a reset; a legal command;
an illegal command word. -/
theorem step_cases {s t : State} (h : step s = .next t) :
    (s.pending = [] ∧ t = s) ∨
    (∃ rest, s.pending = .reset :: rest ∧ t = hostReset { s with pending := rest }) ∨
    (∃ w rest i, s.pending = .command w :: rest ∧ decode w = .ok i ∧ exec i { s with pending := rest } = .next t) ∨
    (∃ w rest e, s.pending = .command w :: rest ∧ decode w = .error e ∧
      t = { s with pending := rest, status := Code.inval.value, out := none }) := by
  cases hp : s.pending with
  | nil =>
    simp only [step, hp] at h
    cases h; exact .inl ⟨rfl, rfl⟩
  | cons hostStep rest =>
    cases hostStep with
    | reset =>
      simp only [step, hp] at h
      cases h; exact .inr (.inl ⟨rest, rfl, rfl⟩)
    | command w =>
      cases hd : decode w with
      | ok i =>
        simp only [step, hp, hd] at h
        exact .inr (.inr (.inl ⟨w, rest, i, rfl, hd, h⟩))
      | error e =>
        simp only [step, hp, hd] at h
        exact .inr (.inr (.inr ⟨w, rest, e, rfl, hd, raise_eq_next.1 h⟩))

/-- No command writes the configuration: R32 lists none that does. -/
theorem exec_keeps_cfg {i : Instr} {s t : State} (h : exec i s = .next t) : t.cfg = s.cfg := by
  rcases exec_cases h with ⟨_, _, rfl, _⟩ | ⟨_, ⟨_, _, rfl⟩ | ⟨_, _, rfl⟩⟩ | ⟨_, rfl⟩ | ⟨_, rfl⟩ |
    ⟨_, _, _, _, rfl⟩ | ⟨_, _, _, _, rfl⟩ | ⟨_, _, rfl⟩ | ⟨_, _, rfl⟩ | ⟨_, _, _, _, rfl⟩ |
    ⟨_, _, _, _, _, _, _, rfl⟩ <;> rfl

theorem step_keeps_cfg {s t : State} (h : step s = .next t) : t.cfg = s.cfg := by
  rcases step_cases h with ⟨_, rfl⟩ | ⟨rest, _, rfl⟩ | ⟨_, _, _, _, _, hexec⟩ | ⟨_, _, _, _, _, rfl⟩
  · rfl
  · exact hostReset_cfg _
  · exact (exec_keeps_cfg hexec).trans rfl
  · rfl

/-- `CAPR` is a view of the configuration (R29). -/
theorem readReg_capr_congr {s t : State} (h : t.cfg = s.cfg) : readReg t .capr = readReg s .capr :=
  congrArg (BitVec.ofNat 32) (cap_eq_of_cfg h)

/-- Settles O15: every case of `step_cases` keeps the configuration, and `CAPR` reads nothing else. -/
theorem noStepChangesTheCapacity : Obligations.NoStepChangesTheCapacity := by
  intro s t h
  have hcfg : t.cfg = s.cfg := step_keeps_cfg h
  exact ⟨hcfg, readReg_capr_congr hcfg⟩

end Sys2Proof.Machine
end

section
/-! The decoding procedure of R85 as an equation for each kind of word, and the encoding formula of R91
(30_encoding.md): decoding accepts exactly the words that match a row, but for RDREG of an index above 6. -/

namespace Sys2Proof.Laws

/-! ### Decoding (R85) -/

/-- "No two rows share an OPC, so at most one row matches" (R85): a row of the table is the one found by its opcode. -/
theorem find?_opcode_of_mem {row : Row} (hmem : row ∈ opcodeTable) :
    opcodeTable.find? (fun r => r.opc == row.opc) = some row := by
  simp only [opcodeTable, List.mem_cons, List.not_mem_nil, or_false] at hmem
  rcases hmem with rfl | rfl | rfl | rfl | rfl | rfl | rfl | rfl | rfl | rfl | rfl | rfl | rfl <;> rfl

/-- On a word that matches a row only the register index of an RDREG is left to check (R85). -/
theorem decode_of_match {w : CommandWord} {row : Row} (hmem : row ∈ opcodeTable)
    (hmatch : w &&& row.mask = row.matchWord) :
    decode w = if row.opc = opcRdreg ∧ 6 < (aField w).toNat then .error (.noSuchRegister (aField w))
      else .ok (row.build (aField w) (dField w)) := by
  have hopc : opcField w = row.opc := ((matches_iff w row).1 hmatch).1
  simp only [decode, hopc, find?_opcode_of_mem hmem, hmatch, ne_eq, not_true_eq_false, if_false]

/-- A word that matches no row is illegal: its opcode is unassigned, or a must-be-zero bit of its row is set (R85). -/
theorem decode_of_no_match {w : CommandWord} (h : ∀ row ∈ opcodeTable, w &&& row.mask ≠ row.matchWord) :
    ∃ e, decode w = .error e := by
  cases hfind : opcodeTable.find? (fun r => r.opc == opcField w) with
  | none => exact ⟨.unassignedOpcode (opcField w), by simp only [decode, hfind]⟩
  | some row =>
    have hne : w &&& row.mask ≠ row.matchWord := h row (List.mem_of_find?_eq_some hfind)
    exact ⟨.mustBeZeroBitSet w, by simp only [decode, hfind, if_pos hne]⟩

/-- Settles O3: `decode_of_match` with the register check decided either way, and `decode_of_no_match`. -/
theorem decodeAcceptsExactlyTheTableRows : Obligations.DecodeAcceptsExactlyTheTableRows := by
  intro w
  refine ⟨fun row hmem hmatch hidx => ?legalIndex, fun row hmem hmatch hopc hidx => ?noSuchRegister, decode_of_no_match⟩
  case legalIndex =>
    rw [decode_of_match hmem hmatch, if_neg fun ⟨hopc, hgt⟩ => (hidx hopc).not_gt hgt]
  case noSuchRegister =>
    exact ⟨.noSuchRegister (aField w), by rw [decode_of_match hmem hmatch, if_pos ⟨hopc, hidx⟩]⟩

/-! ### Encoding (R91) -/

/-- The number of a word whose `RSV` is zero: each of its other fields shifted to its place (R81). -/
theorem toNat_append_fields (o : Byte) (a : Word16) (d : Word32) :
    (o ++ 0x00#8 ++ a ++ d : CommandWord).toNat = o.toNat <<< 56 ||| a.toNat <<< 32 ||| d.toNat := by
  rw [BitVec.toNat_append, BitVec.toNat_append, BitVec.toNat_append]
  simp only [BitVec.toNat_ofNat, Nat.zero_mod, Nat.or_zero, Nat.shiftLeft_or_distrib, ← Nat.shiftLeft_add, Nat.reduceAdd]

/-- A field shifted to a place that ends within the 64 bits of a word loses no bit. -/
theorem toNat_setWidth_shiftLeft {n k : Nat} (x : BitVec n) (h : n + k ≤ 64) :
    (x.setWidth 64 <<< k).toNat = x.toNat <<< k := by
  rw [BitVec.toNat_shiftLeft, BitVec.toNat_setWidth_of_le (by omega), Nat.mod_eq_of_lt]
  exact (Nat.shiftLeft_lt x.isLt).trans_le (Nat.pow_le_pow_right (by decide) h)

/-- The fields of R81 side by side, `RSV` zero, are the formula of R91: each operand shifted to its field. -/
theorem append_fields_eq_formula (o : Byte) (a : Word16) (d : Word32) :
    (o ++ 0x00#8 ++ a ++ d : CommandWord) =
      (o.setWidth 64 <<< 56) ||| (a.setWidth 64 <<< 32) ||| d.setWidth 64 := by
  apply BitVec.eq_of_toNat_eq
  rw [toNat_append_fields, BitVec.toNat_or, BitVec.toNat_or, toNat_setWidth_shiftLeft o (by decide),
    toNat_setWidth_shiftLeft a (by decide), BitVec.toNat_setWidth_of_le (by decide)]

/-- Settles O4: the formula for all fields, and the worked examples of R91 by evaluation. -/
theorem encodingIsTheFormulaOfTheSpec : Obligations.EncodingIsTheFormulaOfTheSpec :=
  ⟨fun i => append_fields_eq_formula i.opcode i.operandA i.operandD, rfl, rfl, rfl, rfl, rfl, rfl, rfl, rfl⟩

end Sys2Proof.Laws
end

section
/-! The big-endian codec of R110 (41_byte_packing.md): encoder and decoder undo each other, because a word is its two
halves side by side, and the halves of two bytes side by side are those bytes. -/

namespace Sys2Proof.Machine

/-- A two-byte list decodes by `be16_dec` (R113). -/
@[simp] theorem be16DecList_pair (b0 b1 : Byte) : be16DecList [b0, b1] = be16Dec b0 b1 := rfl

/-- The high and low halves of a word, side by side, are the word. -/
theorem be16Dec_halves (v : Word16) : be16Dec (v.extractLsb' 8 8) (v.extractLsb' 0 8) = v :=
  calc be16Dec (v.extractLsb' 8 8) (v.extractLsb' 0 8)
    _ = v.extractLsb' 0 16 := BitVec.extractLsb'_append_extractLsb'_eq_extractLsb' rfl
    _ = v := BitVec.extractLsb'_eq_self

theorem be16DecList_be16Enc (v : Word16) : be16DecList (be16Enc v) = v := by
  rw [be16Enc, be16DecList_pair, be16Dec_halves]

theorem be16Enc_be16Dec (b0 b1 : Byte) : be16Enc (be16Dec b0 b1) = [b0, b1] := by
  have hhigh : (be16Dec b0 b1).extractLsb' 8 8 = b0 := BitVec.extractLsb'_append_eq_left
  have hlow : (be16Dec b0 b1).extractLsb' 0 8 = b1 := BitVec.extractLsb'_append_eq_right
  rw [be16Enc, hhigh, hlow]

/-- `b0 ++ b1` is `b0` shifted up by a byte, with `b1` in the freed bits. -/
theorem be16Dec_eq_shift_or (b0 b1 : Byte) :
    be16Dec b0 b1 = ((b0.setWidth 16 <<< 8) ||| b1.setWidth 16 : Word16) :=
  calc be16Dec b0 b1
    _ = (be16Dec b0 b1).setWidth 16 := (BitVec.setWidth_eq _).symm
    _ = (b0.setWidth 16 <<< 8) ||| b1.setWidth 16 := BitVec.setWidth_append_eq_shiftLeft_setWidth_or

/-- Settles O32: both definitions as R110 gives them, and each of the two undoes the other. -/
theorem bigEndianCodecIsABijection : Obligations.BigEndianCodecIsABijection :=
  ⟨fun _ => rfl, be16DecList_be16Enc, be16Dec_eq_shift_or, be16Enc_be16Dec⟩

end Sys2Proof.Machine
end

section
/-! The checksum register (42_checksum.md R121, R122, R124): the bit step as one equation per value of the bit shifted
out, and that bit as the top bit of the result, because the polynomial has bit 15 set and the shift leaves it clear. -/

namespace Sys2Proof.Machine

theorem crcBit_of_lsb_false {r : Word16} (h : r.getLsbD 0 = false) : crcBit r = r >>> 1 :=
  if_neg (Bool.eq_false_iff.mp h)

theorem crcBit_of_lsb_true {r : Word16} (h : r.getLsbD 0 = true) : crcBit r = (r >>> 1) ^^^ crcPoly := if_pos h

/-- A right shift by one clears the top bit. -/
theorem getLsbD_fifteen_ushiftRight_one (r : Word16) : (r >>> 1).getLsbD 15 = false := by
  rw [BitVec.getLsbD_ushiftRight, BitVec.getLsbD_of_ge r (1 + 15) (by decide)]

/-- The bit shifted out of the register is the top bit of the result. -/
theorem crcBit_getLsbD_fifteen (r : Word16) : (crcBit r).getLsbD 15 = r.getLsbD 0 := by
  have hpoly : crcPoly.getLsbD 15 = true := rfl
  cases h : r.getLsbD 0 with
  | false => rw [crcBit_of_lsb_false h, getLsbD_fifteen_ushiftRight_one]
  | true => rw [crcBit_of_lsb_true h, BitVec.getLsbD_xor, getLsbD_fifteen_ushiftRight_one, hpoly, Bool.false_xor]

@[simp] theorem crc16_nil : crc16 [] = crcInit := rfl

/-- One more byte is one more byte step, as the register is a left fold. -/
theorem crc16_append_singleton (bs : List Byte) (b : Byte) : crc16 (bs ++ [b]) = crcByte (crc16 bs) b :=
  List.foldl_concat crcByte crcInit b bs

/-- Settles O37: the fold at the empty list and at one more byte, the eight bit steps by unfolding the iterate, and the
equations of the bit step. -/
theorem crcFoldsTheByteStep : Obligations.CrcFoldsTheByteStep :=
  ⟨crc16_nil, crc16_append_singleton, fun _ _ => rfl,
    fun r => ⟨crcBit_getLsbD_fifteen r, crcBit_of_lsb_false, crcBit_of_lsb_true⟩⟩

end Sys2Proof.Machine
end

section
/-! RDREG (44_buffer_control.md R176, R177): each register by its index, and an index above 6, which names none
(notes/assumptions 9). -/

namespace Sys2Proof.Machine

/-- Only the indices 0 .. 6 name a register (R176). -/
theorem Reg.ofIndex_of_gt {idx : Word16} (h : 6 < idx.toNat) : Reg.ofIndex idx = none := by
  obtain ⟨k, hk⟩ : ∃ k, idx.toNat = k + 7 := ⟨idx.toNat - 7, (Nat.sub_add_cancel h).symm⟩
  simp only [Reg.ofIndex, hk]

/-- RDREG of an index that names no register does what an illegal command word does (R88). -/
theorem exec_rdreg_of_gt {idx : Word16} (h : 6 < idx.toNat) (s : State) :
    exec (.rdreg idx) s = .next { s with status := Code.inval.value, out := none } :=
  calc exec (.rdreg idx) s
    _ = execIllegal s := by simp only [exec, execRdreg, Reg.ofIndex_of_gt h]
    _ = .next { s with status := Code.inval.value, out := none } := rfl

/-- `swap16` puts the low byte above the high byte (R9): it is decoded from its two encoded bytes. -/
theorem swap16_eq_append (v : Word16) : swap16 v = v.extractLsb' 0 8 ++ v.extractLsb' 8 8 :=
  calc swap16 v
    _ = be16DecList (be16Enc (swap16 v)) := (be16DecList_be16Enc (swap16 v)).symm
    _ = be16Dec (v.extractLsb' 0 8) (v.extractLsb' 8 8) := by rw [be16Enc_swap16, be16DecList_pair]

/-- `CSUM` is the checksum register with its two bytes exchanged (R28). -/
theorem readReg_csum (s : State) :
    readReg s .csum = (s.crcr.extractLsb' 0 8 ++ s.crcr.extractLsb' 8 8 : Word16).setWidth 32 :=
  congrArg (BitVec.setWidth 32) (swap16_eq_append s.crcr)

/-- Settles O31: `rdreg_exec` at each of the seven registers, with `CSUM` written as the two exchanged bytes of `CRCR`,
and `exec_rdreg_of_gt` above them. -/
theorem rdregReturnsTheRegister : Obligations.RdregReturnsTheRegister := fun s =>
  have hcsum : exec (.rdreg 5#16) s =
      .next { s with out := some ((s.crcr.extractLsb' 0 8 ++ s.crcr.extractLsb' 8 8 : Word16).setWidth 32) } :=
    readReg_csum s ▸ rdreg_exec .csum s
  ⟨rdreg_exec .ctrl s, rdreg_exec .len s, rdreg_exec .status s, rdreg_exec .res s, rdreg_exec .crcr s, hcsum,
    rdreg_exec .capr s, fun _ hgt => exec_rdreg_of_gt hgt s⟩

end Sys2Proof.Machine
end

section
/-! The round trips between commands and words (30_encoding.md R82 to R85, R91): both come from the rows of the opcode
table, where a row's fields are the operands of the command it builds. -/

namespace Sys2Proof.Laws

/-! ### A legal command's own row -/

/-- An operand narrower than `D` leaves the bits above it zero, as the formats AB and AH ask (R82). -/
theorem setWidth_and_high_mask {k : Nat} (x : BitVec k) :
    x.setWidth 32 &&& (BitVec.allOnes 32 <<< k) = 0#32 := by
  ext i hi
  simp only [← BitVec.getLsbD_eq_getElem, BitVec.getLsbD_and, BitVec.getLsbD_setWidth, BitVec.getLsbD_shiftLeft,
    BitVec.getLsbD_zero]
  by_cases hik : i < k
  · simp [hik]
  · simp [BitVec.getLsbD_of_ge x i (Nat.le_of_not_lt hik)]

/-- An operand narrower than `D` is the low part of the `D` field it is widened to (R83). -/
theorem extractLsb'_setWidth {k : Nat} (hk : k ≤ 32) (x : BitVec k) : (x.setWidth 32).extractLsb' 0 k = x := by
  rw [← BitVec.setWidth_eq_extractLsb' hk, BitVec.setWidth_setWidth_of_le x hk, BitVec.setWidth_eq]

/-- `row` is the row of the table for `i`: it has the opcode of `i`, its fixed bits are zero in the operands of `i`, and
it builds `i` from them (R82, R84). -/
structure IsRowOf (row : Row) (i : Instr) : Prop where
  mem : row ∈ opcodeTable
  opc : row.opc = i.opcode
  aBits : i.operandA &&& aMask row.format = 0#16
  dBits : i.operandD &&& dMask row.format = 0#32
  build : row.build i.operandA i.operandD = i

/-- Every command has a row (R84); the narrow operands of PUTB and WRBE16 come back by `extractLsb'_setWidth`. -/
theorem exists_isRowOf (i : Instr) : ∃ row, IsRowOf row i := by
  cases i with
  | msgnew => exact ⟨opcodeTable[0], List.getElem_mem _, rfl, rfl, rfl, rfl⟩
  | msgdrop => exact ⟨opcodeTable[1], List.getElem_mem _, rfl, rfl, rfl, rfl⟩
  | setlen n => exact ⟨opcodeTable[2], List.getElem_mem _, rfl, BitVec.and_zero, BitVec.zero_and, rfl⟩
  | shrink n => exact ⟨opcodeTable[3], List.getElem_mem _, rfl, BitVec.and_zero, BitVec.zero_and, rfl⟩
  | putb off b =>
    exact ⟨opcodeTable[4], List.getElem_mem _, rfl, BitVec.and_zero, setWidth_and_high_mask b,
      congrArg (Instr.putb off) (extractLsb'_setWidth (by decide) b)⟩
  | getb off => exact ⟨opcodeTable[5], List.getElem_mem _, rfl, BitVec.and_zero, BitVec.zero_and, rfl⟩
  | rdreg idx => exact ⟨opcodeTable[6], List.getElem_mem _, rfl, BitVec.and_zero, BitVec.zero_and, rfl⟩
  | wrbe16 off v =>
    exact ⟨opcodeTable[7], List.getElem_mem _, rfl, BitVec.and_zero, setWidth_and_high_mask v,
      congrArg (Instr.wrbe16 off) (extractLsb'_setWidth (by decide) v)⟩
  | rdbe16 off => exact ⟨opcodeTable[8], List.getElem_mem _, rfl, BitVec.and_zero, BitVec.zero_and, rfl⟩
  | crcapply => exact ⟨opcodeTable[9], List.getElem_mem _, rfl, rfl, rfl, rfl⟩
  | crccheck => exact ⟨opcodeTable[10], List.getElem_mem _, rfl, rfl, rfl, rfl⟩
  | fpack off f => exact ⟨opcodeTable[11], List.getElem_mem _, rfl, BitVec.and_zero, BitVec.and_zero, rfl⟩
  | funpack off => exact ⟨opcodeTable[12], List.getElem_mem _, rfl, BitVec.and_zero, BitVec.zero_and, rfl⟩

/-- The encoded word of a command matches the command's row (R82, R91). -/
theorem IsRowOf.encode_matches {row : Row} {i : Instr} (h : IsRowOf row i) : encode i &&& row.mask = row.matchWord := by
  obtain ⟨hopc, hrsv, ha, hd⟩ := encode_fields i
  exact (matches_iff (encode i) row).2 ⟨hopc.trans h.opc.symm, hrsv, ha ▸ h.aBits, hd ▸ h.dBits⟩

/-- A command is legal exactly when the register check of R85 passes on its operand: only RDREG has RDREG's opcode. -/
theorem wellFormed_iff (i : Instr) : i.WellFormed = true ↔ (i.opcode = opcRdreg → i.operandA.toNat ≤ 6) := by
  cases i with
  | rdreg idx => simp [Instr.WellFormed, Instr.opcode, Instr.operandA]
  | _ => simp [Instr.WellFormed, Instr.opcode, opcRdreg]

/-- Settles O1: the encoded word matches the command's own row, whose register check a legal command passes, and the row
builds the command from the fields of the word. -/
theorem decodeOfEncodeIsTheCommand : Obligations.DecodeOfEncodeIsTheCommand := by
  intro i hwf
  obtain ⟨row, hrow⟩ := exists_isRowOf i
  obtain ⟨-, -, ha, hd⟩ := encode_fields i
  have hidx : ¬(row.opc = opcRdreg ∧ 6 < (aField (encode i)).toNat) := fun ⟨hopc, hgt⟩ =>
    ((wellFormed_iff i).1 hwf (hrow.opc.symm.trans hopc)).not_gt (ha ▸ hgt)
  rw [decode_of_match hrow.mem hrow.encode_matches, if_neg hidx, ha, hd, hrow.build]

/-! ### A word that decodes -/

/-- A word that decodes matches a row whose register check it passes, and is that row's command (R85). -/
theorem decode_eq_ok {w : CommandWord} {i : Instr} (h : decode w = .ok i) :
    ∃ row ∈ opcodeTable, w &&& row.mask = row.matchWord ∧ (row.opc = opcRdreg → (aField w).toNat ≤ 6) ∧
      i = row.build (aField w) (dField w) := by
  by_cases hmatch : ∃ row ∈ opcodeTable, w &&& row.mask = row.matchWord
  · obtain ⟨row, hmem, hrow⟩ := hmatch
    rw [decode_of_match hmem hrow] at h
    split at h
    · cases h
    · next hidx =>
      cases h
      exact ⟨row, hmem, hrow, fun hopc => Nat.le_of_not_lt fun hgt => hidx ⟨hopc, hgt⟩, rfl⟩
  · obtain ⟨e, he⟩ := decode_of_no_match fun row hmem hrow => hmatch ⟨row, hmem, hrow⟩
    exact absurd (he.symm.trans h) nofun

/-- The command a row builds from fields whose fixed bits are zero has the row's opcode and these fields as operands
(R82 to R84); an operand narrower than its field comes back by `low_of_mask`. -/
theorem fields_of_build {row : Row} (hmem : row ∈ opcodeTable) {a : Word16} {d : Word32}
    (ha : a &&& aMask row.format = 0#16) (hd : d &&& dMask row.format = 0#32) :
    (row.build a d).opcode = row.opc ∧ (row.build a d).operandA = a ∧ (row.build a d).operandD = d := by
  have noD : d &&& 0xFFFFFFFF#32 = 0#32 → 0#32 = d := fun h => (BitVec.and_allOnes.symm.trans h).symm
  have noA : a &&& 0xFFFF#16 = 0#16 → 0#16 = a := fun h => (BitVec.and_allOnes.symm.trans h).symm
  simp only [opcodeTable, List.mem_cons, List.not_mem_nil, or_false] at hmem
  rcases hmem with rfl | rfl | rfl | rfl | rfl | rfl | rfl | rfl | rfl | rfl | rfl | rfl | rfl
  · exact ⟨rfl, noA ha, noD hd⟩ -- MSGNEW
  · exact ⟨rfl, noA ha, noD hd⟩ -- MSGDROP
  · exact ⟨rfl, rfl, noD hd⟩ -- SETLEN
  · exact ⟨rfl, rfl, noD hd⟩ -- SHRINK
  · exact ⟨rfl, rfl, low_of_mask (k := 8) (by decide) hd⟩ -- PUTB
  · exact ⟨rfl, rfl, noD hd⟩ -- GETB
  · exact ⟨rfl, rfl, noD hd⟩ -- RDREG
  · exact ⟨rfl, rfl, low_of_mask (k := 16) (by decide) hd⟩ -- WRBE16
  · exact ⟨rfl, rfl, noD hd⟩ -- RDBE16
  · exact ⟨rfl, noA ha, noD hd⟩ -- CRCAPPLY
  · exact ⟨rfl, noA ha, noD hd⟩ -- CRCCHECK
  · exact ⟨rfl, rfl, rfl⟩ -- FPACK
  · exact ⟨rfl, rfl, noD hd⟩ -- FUNPACK

/-- Settles O2: a word that decodes matches a row, so it is the row's opcode, a zero `RSV` and the operands of the
command the row builds; the register check makes that command legal. -/
theorem encodeOfDecodeIsTheWord : Obligations.EncodeOfDecodeIsTheWord := by
  intro w i hdecode
  obtain ⟨row, hmem, hmatch, hidx, rfl⟩ := decode_eq_ok hdecode
  obtain ⟨hopc, hrsv, ha, hd⟩ := (matches_iff w row).1 hmatch
  obtain ⟨ho, hA, hD⟩ := fields_of_build hmem ha hd
  refine ⟨?_, (wellFormed_iff _).2 (ho.symm ▸ hA.symm ▸ hidx)⟩
  calc encode (row.build (aField w) (dField w))
    _ = opcField w ++ rsvField w ++ aField w ++ dField w := by rw [encode, ho, hA, hD, hopc, hrsv]
    _ = w := (word_eq_fields w).symm

/-- Settles O5: each word written out from the table, and each illegal one, by evaluation. -/
theorem writtenOutWordsDecode : Obligations.WrittenOutWordsDecode := by
  unfold Obligations.WrittenOutWordsDecode
  decide

end Sys2Proof.Laws
end

section
/-! The assembler (30_encoding.md R90, R91): one equation of `assembleRow` per operand format, and of the fitting of an
operand per kind of operand. -/

namespace Sys2Proof.Machine

/-! ### Fitting an operand -/

theorem fitNumber_of_lt {bits n : Nat} (h : n < 2 ^ bits) : fitNumber bits (.number n) = .ok n := if_pos h

theorem fitNumber_of_ge {bits n : Nat} (h : 2 ^ bits ≤ n) :
    fitNumber bits (.number n) = .error (.operandDoesNotFit n bits) := if_neg h.not_gt

theorem fitNumber_register (bits : Nat) (r : Reg) : fitNumber bits (.register r) = .error .registerNotAllowed := rfl

theorem fitOperandA_number (row : Row) (n : Nat) : fitOperandA row (.number n) = fitNumber 16 (.number n) := rfl

/-- A register name is its index "only as the RDREG operand" (R90). -/
theorem fitOperandA_register_of_rdreg {row : Row} (h : row.opc = opcRdreg) (r : Reg) :
    fitOperandA row (.register r) = .ok r.index.toNat := if_pos h

theorem fitOperandA_register_of_ne {row : Row} (h : row.opc ≠ opcRdreg) (r : Reg) :
    fitOperandA row (.register r) = .error .registerNotAllowed := if_neg h

/-! ### A row with its operands -/

/-- A row of format Z takes no operand (R82, R91). -/
theorem assembleRow_formatZ {row : Row} (h : row.format = .Z) :
    assembleRow row [] = .ok (assembleWord row.opc 0 0) := by simp only [assembleRow, h]

/-- A row of format A takes one operand (R82, R91). -/
theorem assembleRow_formatA {row : Row} (h : row.format = .A) (x : AsmOperand) :
    assembleRow row [x] = (fitOperandA row x).bind fun a => .ok (assembleWord row.opc a 0) := by
  simp only [assembleRow, h]
  rfl

/-- A row with a `D` operand takes two, "the `A` operand first, the `D` operand second" (R82, R91). -/
theorem assembleRow_dataBits {row : Row} {bits : Nat} (h : Format.dataBits row.format = some bits) (x y : AsmOperand) :
    assembleRow row [x, y] =
      (fitOperandA row x).bind fun a => (fitNumber bits y).bind fun d => .ok (assembleWord row.opc a d) := by
  cases hf : row.format with
  | Z | A => rw [hf] at h; cases h
  | AB | AH | AW =>
    rw [hf] at h
    cases h
    simp only [assembleRow, hf, Format.dataBits]
    rfl

/-- RDREG has no `D` operand, so a row that has one takes no register name (R84, R90). -/
theorem opc_ne_rdreg_of_dataBits {row : Row} (hmem : row ∈ opcodeTable) {bits : Nat}
    (h : Format.dataBits row.format = some bits) : row.opc ≠ opcRdreg := by
  have hnone : ∀ row ∈ opcodeTable, row.opc = opcRdreg → Format.dataBits row.format = none := by decide
  intro hopc
  rw [hnone row hmem hopc] at h
  cases h

/-! ### The word -/

theorem assembleWord_zero_zero (opc : Byte) : assembleWord opc 0 0 = opc.setWidth 64 <<< 56 := by simp [assembleWord]

theorem assembleWord_zero (opc : Byte) (a : Nat) :
    assembleWord opc a 0 = (opc.setWidth 64 <<< 56) ||| (BitVec.ofNat 64 a <<< 32) := by simp [assembleWord]

/-- `RDREG <name>` is the word of RDREG with the index of the name (R90, R91). -/
theorem assembleWord_rdreg (r : Reg) : assembleWord opcRdreg r.index.toNat 0 = encode (.rdreg r.index) := by
  cases r <;> rfl

/-- Settles O6: the equation of each row's format, with every operand fitting or one that does not. -/
theorem assemblerAcceptsExactlyTheOperandsThatFit : Obligations.AssemblerAcceptsExactlyTheOperandsThatFit := by
  intro row hmem
  refine ⟨fun hZ => ?noOperand, fun hA a => ⟨fun ha => ?number, fun ha => ?tooLarge⟩,
    fun hA r => ⟨fun hopc => ?registerName, fun hopc => ?noRegisterName⟩,
    fun bits hbits => ⟨fun a d => ⟨fun ha hd => ?two, fun hout => ?twoTooLarge⟩,
      fun r x => ⟨?registerFirst, ?registerSecond⟩⟩⟩
  case noOperand => rw [assembleRow_formatZ hZ, assembleWord_zero_zero]
  case number =>
    rw [assembleRow_formatA hA, fitOperandA_number, fitNumber_of_lt ha, Except.bind, assembleWord_zero]
  case tooLarge => exact ⟨_, by rw [assembleRow_formatA hA, fitOperandA_number, fitNumber_of_ge ha, Except.bind]⟩
  case registerName =>
    rw [assembleRow_formatA hA, fitOperandA_register_of_rdreg hopc, Except.bind, show row.opc = opcRdreg from hopc,
      assembleWord_rdreg]
  case noRegisterName => exact ⟨_, by rw [assembleRow_formatA hA, fitOperandA_register_of_ne hopc, Except.bind]⟩
  case two =>
    rw [assembleRow_dataBits hbits, fitOperandA_number, fitNumber_of_lt ha, Except.bind, fitNumber_of_lt hd,
      Except.bind, assembleWord]
  case twoTooLarge =>
    rw [assembleRow_dataBits hbits, fitOperandA_number]
    rcases Nat.lt_or_ge a 65536 with ha | ha
    · exact ⟨_, by rw [fitNumber_of_lt ha, Except.bind, fitNumber_of_ge (hout.resolve_left ha.not_ge), Except.bind]⟩
    · exact ⟨_, by rw [fitNumber_of_ge ha, Except.bind]⟩
  case registerFirst =>
    exact ⟨_, by rw [assembleRow_dataBits hbits, fitOperandA_register_of_ne (opc_ne_rdreg_of_dataBits hmem hbits),
      Except.bind]⟩
  case registerSecond =>
    rw [assembleRow_dataBits hbits, fitNumber_register]
    cases fitOperandA row x with
    | ok a => exact ⟨_, rfl⟩
    | error e => exact ⟨_, rfl⟩

end Sys2Proof.Machine
end

section
/-! What each command does, case by case (41_byte_packing.md, 42_checksum.md, 43_float_codec.md, 44_buffer_control.md):
without a message, out of range, and otherwise, with the next state as an equation. The whole-machine rules and the host
sequences use these equations and unfold no command. -/

namespace Sys2Proof.Machine

/-! ### Without a message (R223, R225) -/

/-- `RES` after a command that finds no message: 0 for RDBE16 (R112), the NaN sentinel for FUNPACK (R154), as before for
every other. -/
def absentRes (i : Instr) (s : State) : Word32 :=
  match i with
  | .rdbe16 _ => 0#32
  | .funpack _ => Config.nanSentinel
  | .msgnew | .msgdrop | .setlen _ | .shrink _ | .putb _ _ | .getb _ | .rdreg _ | .wrbe16 _ _ | .crcapply | .crccheck
  | .fpack _ _ => s.res

theorem absentRes_of_ne {i : Instr} (h : ∀ off, i ≠ .rdbe16 off ∧ i ≠ .funpack off) (s : State) :
    absentRes i s = s.res := by
  cases i with
  | rdbe16 off => exact absurd rfl (h off).1
  | funpack off => exact absurd rfl (h off).2
  | _ => rfl

theorem absentRes_congr (i : Instr) {s t : State} (h : t.res = s.res) : absentRes i t = absentRes i s := by
  cases i with
  | rdbe16 | funpack => rfl
  | _ => exact h

/-- The presence check comes before every check of the operands (R225). -/
theorem exec_absent {i : Instr} {s : State} (hneeds : needsMessage i = true) (hp : s.present = false) :
    exec i s = .next { s with status := 0x01#8, res := absentRes i s, out := none } := by
  have hnot : ¬ s.present = true := Bool.eq_false_iff.1 hp
  cases i with
  | msgnew | msgdrop | rdreg => cases hneeds
  | rdbe16 | funpack => exact if_neg hnot
  | _ => exact requireMessage_absent hp _

/-! ### Out of range (R52) -/

/-- An access that leaves the buffer is `E_INVAL`, and nothing is accessed. -/
theorem exec_out_of_range {i : Instr} {s : State} (hpos : 0 < (accessRange i).2) (hp : s.present = true)
    (hr : s.cap < (accessRange i).1 + (accessRange i).2) :
    exec i s = .next { s with status := 0x07#8, out := none } := by
  cases i with
  | putb | getb | wrbe16 | fpack => exact (requireMessage_present hp _).trans (requireRange_out hr _)
  | rdbe16 | funpack => exact (if_pos hp).trans (requireRange_out hr _)
  | msgnew | msgdrop | setlen | shrink | rdreg | crcapply | crccheck => cases hpos

/-! ### Stores -/

/-- The state after the bytes `bs` were stored at `off` and the command was done. -/
def stored (off : Nat) (bs : List Byte) (s : State) : State :=
  { s with msg := s.msg.insertAll off bs, status := 0x00#8, out := none }

/-- A byte inside a store is the byte stored there, every other is as before (R10). -/
theorem readByte_stored (off : Nat) (bs : List Byte) (s : State) (a : Nat) :
    readByte (stored off bs s) a =
      if off ≤ a ∧ a < off + bs.length then (bs[a - off]?).getD 0x00#8 else readByte s a :=
  readByte_insertAll (s := s) (t := stored off bs s) rfl rfl a

theorem readByte_stored_inside (off : Nat) {bs : List Byte} (s : State) {k : Nat} (hk : k < bs.length) :
    readByte (stored off bs s) (off + k) = bs[k] := by
  rw [readByte_stored, if_pos ⟨Nat.le_add_right off k, Nat.add_lt_add_left hk off⟩, Nat.add_sub_cancel_left,
    List.getElem?_eq_getElem hk, Option.getD_some]

theorem readByte_stored_outside {off : Nat} {bs : List Byte} (s : State) {a : Nat}
    (ha : a < off ∨ off + bs.length ≤ a) : readByte (stored off bs s) a = readByte s a := by
  rw [readByte_stored, if_neg (by omega)]

/-- Reading back what was stored gives it (R59). -/
theorem readBytes_stored (off : Nat) (bs : List Byte) (s : State) :
    readBytes (stored off bs s) off bs.length = bs := by
  refine List.ext_getElem (readBytes_length _ _ _) fun k hk hk' => ?_
  rw [← Option.some_inj, ← List.getElem?_eq_getElem, readBytes_getElem? _ _ _ _ hk', readByte_stored_inside off s hk']

theorem exec_putb_in {off : Word16} {s : State} (hp : s.present = true) (hr : off.toNat + 1 ≤ s.cap) (b : Byte) :
    exec (.putb off b) s = .next (stored off.toNat [b] s) :=
  (requireMessage_present hp _).trans ((requireRange_in hr _).trans (memWrite_in hr _))

theorem exec_wrbe16_in {off : Word16} {s : State} (hp : s.present = true) (hr : off.toNat + 2 ≤ s.cap) (v : Word16) :
    exec (.wrbe16 off v) s = .next (stored off.toNat (be16Enc v) s) :=
  (requireMessage_present hp _).trans ((requireRange_in hr _).trans (memWrite_in hr _))

theorem exec_fpack_in {off : Word16} {s : State} (hp : s.present = true) (hr : off.toNat + 4 ≤ s.cap) (f : Word32) :
    exec (.fpack off f) s = .next (stored off.toNat (packedBytes (pack f)) s) :=
  (requireMessage_present hp _).trans ((requireRange_in hr _).trans (memWrite_in hr _))

/-! ### Loads -/

theorem exec_getb_in {off : Word16} {s : State} (hp : s.present = true) (hr : off.toNat + 1 ≤ s.cap) :
    exec (.getb off) s =
      .next { s with res := (readByte s off.toNat).setWidth 32, status := 0x00#8, out := none } :=
  (requireMessage_present hp _).trans ((requireRange_in hr _).trans (memRead_in hr _))

theorem exec_rdbe16_in {off : Word16} {s : State} (hp : s.present = true) (hr : off.toNat + 2 ≤ s.cap) :
    exec (.rdbe16 off) s =
      .next { s with
        res := (be16Dec (readByte s off.toNat) (readByte s (off.toNat + 1))).setWidth 32, status := 0x00#8,
        out := none } :=
  (if_pos hp).trans ((requireRange_in hr _).trans (memRead_in hr _))

theorem exec_funpack_in {off : Word16} {s : State} (hp : s.present = true) (hr : off.toNat + 4 ≤ s.cap) :
    exec (.funpack off) s =
      .next { s with res := unpack (packedAt s off.toNat), status := 0x00#8, out := none } :=
  (if_pos hp).trans ((requireRange_in hr _).trans (memRead_in hr _))

/-- A command with a range check succeeds in range. -/
theorem exec_in_range {i : Instr} {s : State} (hpos : 0 < (accessRange i).2) (hp : s.present = true)
    (hr : (accessRange i).1 + (accessRange i).2 ≤ s.cap) : ∃ t, exec i s = .next t ∧ t.status = 0x00#8 := by
  cases i with
  | putb off b => exact ⟨_, exec_putb_in hp hr b, rfl⟩
  | getb off => exact ⟨_, exec_getb_in hp hr, rfl⟩
  | wrbe16 off v => exact ⟨_, exec_wrbe16_in hp hr v, rfl⟩
  | rdbe16 off => exact ⟨_, exec_rdbe16_in hp hr, rfl⟩
  | fpack off f => exact ⟨_, exec_fpack_in hp hr f, rfl⟩
  | funpack off => exact ⟨_, exec_funpack_in hp hr, rfl⟩
  | msgnew | msgdrop | setlen | shrink | rdreg | crcapply | crccheck => cases hpos

/-! ### The length -/

theorem exec_setlen_too_long {n : Word16} {s : State} (hp : s.present = true) (hn : s.cap < n.toNat) :
    exec (.setlen n) s = .next { s with status := 0x02#8, out := none } :=
  (requireMessage_present hp _).trans (if_pos hn)

theorem exec_setlen_in {n : Word16} {s : State} (hp : s.present = true) (hn : n.toNat ≤ s.cap) :
    exec (.setlen n) s = .next { s with len := n, status := 0x00#8, out := none } :=
  (requireMessage_present hp _).trans (if_neg hn.not_gt)

theorem exec_shrink_too_short {n : Word16} {s : State} (hp : s.present = true) (hn : s.len.toNat < n.toNat) :
    exec (.shrink n) s = .next { s with status := 0x06#8, out := none } :=
  (requireMessage_present hp _).trans (if_pos hn)

theorem exec_shrink_in {n : Word16} {s : State} (hp : s.present = true) (hn : n.toNat ≤ s.len.toNat) :
    exec (.shrink n) s = .next { s with len := n, status := 0x00#8, out := none } :=
  (requireMessage_present hp _).trans (if_neg hn.not_gt)

/-! ### The checksum commands -/

/-- The last two bytes of the message are the register after its covered region, low byte first (R126, R128). -/
def Verifies (s : State) : Prop :=
  readByte s (s.len.toNat - 2) = (crc16 (coveredRegion s)).extractLsb' 0 8 ∧
    readByte s (s.len.toNat - 1) = (crc16 (coveredRegion s)).extractLsb' 8 8

theorem requireChecksumField_in {s : State} (hp : s.present = true) (hl : 2 ≤ s.len.toNat) (k : Result) :
    requireChecksumField s k = k :=
  (requireMessage_present hp _).trans (if_neg hl.not_gt)

theorem requireChecksumField_too_short {s : State} (hp : s.present = true) (hl : s.len.toNat < 2) (k : Result) :
    requireChecksumField s k = .next { s with status := 0x06#8, out := none } :=
  (requireMessage_present hp _).trans (if_pos hl)

theorem exec_crcapply_in {s : State} (hp : s.present = true) (hl : 2 ≤ s.len.toNat) (hc : s.len.toNat ≤ s.cap) :
    exec .crcapply s =
      .next (stored (s.len.toNat - 2) (be16Enc (swap16 (crc16 (coveredRegion s))))
        { s with crcr := crc16 (coveredRegion s) }) :=
  have hfield : s.len.toNat - 2 + 2 ≤ s.cap := by omega
  (requireChecksumField_in hp hl _).trans ((memRead_in (by omega) _).trans (memWrite_in hfield _))

/-- The stored checksum is the swapped register exactly when its two bytes are the register's, low byte first. -/
theorem be16Dec_eq_swap16_iff (b0 b1 : Byte) (r : Word16) :
    be16Dec b0 b1 = swap16 r ↔ b0 = r.extractLsb' 0 8 ∧ b1 = r.extractLsb' 8 8 :=
  calc be16Dec b0 b1 = swap16 r
    _ ↔ be16Enc (be16Dec b0 b1) = be16Enc (swap16 r) :=
      ⟨congrArg be16Enc, fun h => by simpa only [be16DecList_be16Enc] using congrArg be16DecList h⟩
    _ ↔ b0 = r.extractLsb' 0 8 ∧ b1 = r.extractLsb' 8 8 := by simp [be16Enc_be16Dec, be16Enc_swap16]

/-- CRCCHECK of a message within the buffer: `CRCR` is the recomputed register, and the outcome says whether it
verifies. -/
theorem exec_crccheck_in {s : State} (hp : s.present = true) (hl : 2 ≤ s.len.toNat) (hc : s.len.toNat ≤ s.cap) :
    ∃ c, exec .crccheck s = .next { s with crcr := crc16 (coveredRegion s), status := c, out := none } ∧
      (Verifies s → c = 0x00#8) ∧ (¬ Verifies s → c = 0x04#8) := by
  have hlast : s.len.toNat - 2 + 1 = s.len.toNat - 1 := by omega
  have hverifies : be16DecList (readBytes s (s.len.toNat - 2) 2) = swap16 (crc16 (coveredRegion s)) ↔ Verifies s := by
    rw [readBytes_two, be16DecList_pair, be16Dec_eq_swap16_iff, hlast, Verifies]
  have hexec : exec .crccheck s = _ :=
    (requireChecksumField_in hp hl _).trans ((memRead_in (by omega) _).trans (memRead_in (by omega) _))
  by_cases hv : Verifies s
  · exact ⟨0x00#8, hexec.trans (if_pos (hverifies.2 hv)), fun _ => rfl, absurd hv⟩
  · exact ⟨0x04#8, hexec.trans (if_neg (hv ∘ hverifies.1)), fun h => absurd h hv, fun _ => rfl⟩

theorem memRead_out {off n : Nat} {s : State} (h : s.cap < off + n) (k : List Byte → Result) :
    memRead off n s k = .fault (.outsideMsg off n) := if_neg h.not_ge

theorem memWrite_out {off : Nat} {bs : List Byte} {s : State} (h : s.cap < off + bs.length) (k : State → Result) :
    memWrite off bs s k = .fault (.outsideMsg off bs.length) := if_neg h.not_ge

/-- Either checksum command stops on a message longer than the buffer, at the access that leaves it: the covered region,
or the checksum field (notes/assumptions 12). -/
theorem exec_checksum_stops {i : Instr} {s : State} (hi : i = .crcapply ∨ i = .crccheck) (hp : s.present = true)
    (hc : s.cap < s.len.toNat) : ∃ off n, exec i s = .fault (.outsideMsg off n) := by
  have hl : 2 ≤ s.len.toNat := by have := s.cap_pos; omega
  have hfield : s.cap < s.len.toNat - 2 + 2 := by omega
  rcases Nat.lt_or_ge s.cap (0 + (s.len.toNat - 2)) with hcovered | hcovered
  · rcases hi with rfl | rfl
    · exact ⟨_, _, (requireChecksumField_in hp hl _).trans (memRead_out hcovered _)⟩
    · exact ⟨_, _, (requireChecksumField_in hp hl _).trans (memRead_out hcovered _)⟩
  · rcases hi with rfl | rfl
    · exact ⟨_, _, (requireChecksumField_in hp hl _).trans ((memRead_in hcovered _).trans (memWrite_out hfield _))⟩
    · exact ⟨_, _, (requireChecksumField_in hp hl _).trans ((memRead_in hcovered _).trans (memRead_out hfield _))⟩

end Sys2Proof.Machine
end

section
/-! The commands' statements (41_byte_packing.md, 42_checksum.md, 44_buffer_control.md): each is the equations of its
command, with the bytes of a store read back. -/

namespace Sys2Proof.Machine

/-! ### Buffer control -/

/-- Settles O25: nothing is listed after MSGNEW, so every byte is the free byte of the next draw. -/
theorem msgnewStartsAFreshMessage : Obligations.MsgnewStartsAFreshMessage := fun _ =>
  ⟨_, rfl, rfl, readByte_nothing_listed rfl⟩

/-- Settles O26: the meaning of MSGDROP, which has one case. -/
theorem msgdropDiscardsTheMessage : Obligations.MsgdropDiscardsTheMessage := fun _ => rfl

/-- Settles O27: `exec_absent` and the two cases of the capacity. -/
theorem setlenSetsTheLengthWithinCapacity : Obligations.SetlenSetsTheLengthWithinCapacity := fun _ _ =>
  ⟨exec_absent rfl, exec_setlen_too_long, exec_setlen_in⟩

/-- Settles O28: `exec_absent` and the two cases of the length. -/
theorem shrinkOnlyLowersTheLength : Obligations.ShrinkOnlyLowersTheLength := fun _ _ =>
  ⟨exec_absent rfl, exec_shrink_too_short, exec_shrink_in⟩

/-- Settles O29: the store is the one byte `b`. -/
theorem putbStoresOneByte : Obligations.PutbStoresOneByte := by
  intro off b s
  refine ⟨exec_absent rfl, exec_out_of_range (i := .putb off b) Nat.one_pos,
    fun hp hr => ⟨_, exec_putb_in hp hr b, rfl, ?same, ?other⟩⟩
  case same => exact readByte_stored_inside off.toNat s (bs := [b]) Nat.one_pos
  case other => exact fun a ha => readByte_stored_outside s (Nat.lt_or_gt_of_ne ha)

/-- Settles O30: `exec_absent`, `exec_out_of_range` and the load of one byte. -/
theorem getbLoadsOneByte : Obligations.GetbLoadsOneByte := fun off _ =>
  ⟨exec_absent rfl, exec_out_of_range (i := .getb off) Nat.one_pos, exec_getb_in⟩

/-! ### Byte packing -/

/-- Settles O33: the store is the two bytes of `be16Enc`. -/
theorem wrbe16StoresBigEndian : Obligations.Wrbe16StoresBigEndian := by
  intro off v s
  refine ⟨exec_absent rfl, exec_out_of_range (i := .wrbe16 off v) Nat.two_pos,
    fun hp hr => ⟨_, exec_wrbe16_in hp hr v, rfl, ?high, ?low, fun a h0 h1 => ?other⟩⟩
  case high => exact readByte_stored_inside off.toNat s (bs := be16Enc v) Nat.two_pos
  case low => exact readByte_stored_inside off.toNat s (bs := be16Enc v) Nat.one_lt_two
  case other =>
    have hout : a < off.toNat ∨ off.toNat + 2 ≤ a := by omega
    exact readByte_stored_outside s hout

/-- Settles O34: `exec_absent`, `exec_out_of_range` and the load of two bytes. -/
theorem rdbe16LoadsBigEndian : Obligations.Rdbe16LoadsBigEndian := fun off _ =>
  ⟨exec_absent rfl, exec_out_of_range (i := .rdbe16 off) Nat.two_pos, exec_rdbe16_in⟩

/-! ### Checksum commands -/

/-- Settles O35: the store is the register after the covered region, low byte first (`be16Enc_swap16`). -/
theorem crcapplyStoresTheChecksum : Obligations.CrcapplyStoresTheChecksum := by
  intro s
  refine ⟨exec_absent rfl, fun hp hl => requireChecksumField_too_short hp hl _, fun hp hl hc => ?inBuffer,
    fun hp hc => exec_checksum_stops (.inl rfl) hp hc⟩
  case inBuffer =>
    have hlast : s.len.toNat - 1 = s.len.toNat - 2 + 1 := by omega
    have hexec := exec_crcapply_in hp hl hc
    rw [be16Enc_swap16] at hexec
    refine ⟨_, _, hexec, rfl, rfl, ?low, ?high, fun a h0 h1 => ?other⟩
    case low => exact readByte_stored_inside _ _ (bs := [_, _]) Nat.two_pos
    case high => rw [hlast]; exact readByte_stored_inside _ _ (bs := [_, _]) Nat.one_lt_two
    case other =>
      have hout : a < s.len.toNat - 2 ∨ s.len.toNat - 2 + 2 ≤ a := by omega
      exact readByte_stored_outside _ hout

/-- Settles O36: `exec_crccheck_in` with `CRCR` named, and the other cases of both checksum commands. -/
theorem crccheckVerifiesTheChecksum : Obligations.CrccheckVerifiesTheChecksum := by
  intro s
  refine ⟨exec_absent rfl, fun hp hl => requireChecksumField_too_short hp hl _, fun hp hl hc r hr => ?inBuffer,
    fun hp hc => exec_checksum_stops (.inr rfl) hp hc⟩
  case inBuffer =>
    subst hr
    obtain ⟨c, hexec, hgood, hbad⟩ := exec_crccheck_in hp hl hc
    exact ⟨fun hv => hgood hv ▸ hexec, fun hv => hbad hv ▸ hexec⟩

end Sys2Proof.Machine
end

section
/-! The step and the whole-machine rules (00_scope.md R12, 10_state.md R24, R30, R32, 60_exceptions.md R220 to R228,
70_reset_and_hazards.md R251): case analyses of `step_cases` and `exec_cases`, and of the commands' equations. -/

namespace Sys2Proof.Machine

/-! ### The step -/

/-- Settles O7: the step of a word that decodes. -/
theorem stepExecutesTheDecodedCommand : Obligations.StepExecutesTheDecodedCommand := by
  intro s w rest i hpending hdecode
  simp only [step, hpending, hdecode]

/-- Settles O8: the step of a word that does not decode is `execIllegal`. -/
theorem illegalWordChangesOnlyTheStatus : Obligations.IllegalWordChangesOnlyTheStatus := by
  intro s w rest e hpending hdecode
  simp only [step, hpending, hdecode, execIllegal, raise, Code.value]

/-- Settles O9: the step with nothing waiting. -/
theorem blockIsPassiveBetweenHostSteps : Obligations.BlockIsPassiveBetweenHostSteps := by
  intro s hpending
  simp only [step, hpending]

/-- Settles O10: the step of a reset is `hostReset`, after which nothing is listed. -/
theorem resetStepGivesTheResetValues : Obligations.ResetStepGivesTheResetValues := by
  intro s rest hpending
  have hstep : step s = .next (hostReset { s with pending := rest }) := by simp only [step, hpending]
  exact ⟨_, hstep, rfl, rfl, rfl, rfl, rfl, rfl, rfl, rfl, rfl, readByte_nothing_listed rfl⟩

/-- Settles O11: the fields of `State.reset`, where nothing is listed. -/
theorem resetStateHoldsTheResetValues : Obligations.ResetStateHoldsTheResetValues :=
  ⟨rfl, rfl, rfl, rfl, rfl, rfl, readByte_nothing_listed rfl⟩

/-! ### What a command writes -/

/-- Settles O20: `exec_absent`, with `absentRes` read at each kind of command. -/
theorem absentMessageIsReportedBeforeTheOperands : Obligations.AbsentMessageIsReportedBeforeTheOperands := by
  intro i s hneeds hp
  refine ⟨absentRes i s, exec_absent hneeds hp, ?rdbe16, ?funpack, fun hne => absentRes_of_ne hne s⟩
  case rdbe16 => rintro off rfl; rfl
  case funpack => rintro off rfl; rfl

/-- Settles O21: the two sides of the range check. -/
theorem rangeCheckIsAgainstTheCapacity : Obligations.RangeCheckIsAgainstTheCapacity := fun _ _ hpos hp =>
  ⟨exec_out_of_range hpos hp, exec_in_range hpos hp⟩

/-- What a command `i` that goes on makes of `s` (R32, R220): `exec_cases` with a name for each case. -/
inductive Effect (i : Instr) (s : State) : State → Prop
  | fault (c : Code) (hc : c ∈ [Code.noBuf, .tooLong, .tooShort, .inval]) (hi : isLegalRdreg i = false) :
      Effect i s { s with status := c.value, out := none }
  | absentRead (r : Word32) (hp : s.present = false) (hi : ∃ off, i = .rdbe16 off ∨ i = .funpack off) :
      Effect i s { s with res := r, status := 0x01#8, out := none }
  | msgnew (hi : i = .msgnew) :
      Effect i s { s with present := true, len := 0#16, msg := [], draws := s.draws + 1, status := 0x00#8, out := none }
  | msgdrop (hi : i = .msgdrop) : Effect i s { s with present := false, len := 0#16, status := 0x00#8, out := none }
  | setlen (n : Word16) (hi : i = .setlen n) (hp : s.present = true) (hn : n.toNat ≤ s.cap) :
      Effect i s { s with len := n, status := 0x00#8, out := none }
  | shrink (n : Word16) (hi : i = .shrink n) (hp : s.present = true) (hn : n.toNat ≤ s.len.toNat) :
      Effect i s { s with len := n, status := 0x00#8, out := none }
  | load (r : Word32) (hi : ∃ off, i = .getb off ∨ i = .rdbe16 off ∨ i = .funpack off) :
      Effect i s { s with res := r, status := 0x00#8, out := none }
  | rdreg (v : Option Word32) (hi : isLegalRdreg i = true) : Effect i s { s with out := v }
  | crccheck (r : Word16) (c : Code) (hi : i = .crccheck) (hc : c ∈ [Code.ok, .badBuf]) :
      Effect i s { s with crcr := r, status := c.value, out := none }
  | store (bs : List Byte) (r : Word16) (hp : s.present = true) (hlen : bs.length = (storeRange i s).2)
      (hin : (storeRange i s).1 + bs.length ≤ s.cap) (hr : i ≠ .crcapply → r = s.crcr) (hpos : 0 < bs.length) :
      Effect i s { s with crcr := r, msg := s.msg.insertAll (storeRange i s).1 bs, status := 0x00#8, out := none }

theorem exec_effect {i : Instr} {s t : State} (h : exec i s = .next t) : Effect i s t := by
  rcases exec_cases h with ⟨c, hc, rfl, hi⟩ | ⟨hp, ⟨off, hi, rfl⟩ | ⟨off, hi, rfl⟩⟩ | ⟨hi, rfl⟩ | ⟨hi, rfl⟩ |
    ⟨hp, n, hi, hn, rfl⟩ | ⟨hp, n, hi, hn, rfl⟩ | ⟨r, hi, rfl⟩ | ⟨v, hi, rfl⟩ | ⟨hi, r, c, hc, rfl⟩ |
    ⟨hp, bs, r, hlen, hin, hr, hpos, rfl⟩
  · exact .fault c hc hi
  · exact .absentRead _ hp ⟨off, .inl hi⟩
  · exact .absentRead _ hp ⟨off, .inr hi⟩
  · exact .msgnew hi
  · exact .msgdrop hi
  · exact .setlen n hi hp hn
  · exact .shrink n hi hp hn
  · exact .load r hi
  · exact .rdreg v hi
  · exact .crccheck r c hi hc
  · exact .store bs r hp hlen hin hr hpos

theorem code_mem_produced {c : Code} (hc : c ∈ Code.produced) : c.value ∈ Code.produced.map Code.value :=
  List.mem_map_of_mem hc

/-- A legal RDREG stores to no byte. -/
theorem isLegalRdreg_of_store {i : Instr} {s : State} {bs : List Byte} (hlen : bs.length = (storeRange i s).2)
    (hpos : 0 < bs.length) : isLegalRdreg i = false := by
  cases i with
  | rdreg idx => exact absurd hlen hpos.ne'
  | _ => rfl

section
variable {i : Instr} {s t : State}

theorem Effect.present (h : Effect i s t) (hi : writesPresent i = false) : t.present = s.present := by
  cases h with
  | msgnew hnew => subst hnew; cases hi
  | msgdrop hdrop => subst hdrop; cases hi
  | _ => rfl

theorem Effect.len (h : Effect i s t) (hi : writesLen i = false) : t.len = s.len := by
  cases h with
  | msgnew hi' | msgdrop hi' | setlen n hi' | shrink n hi' => subst hi'; cases hi
  | _ => rfl

theorem Effect.res (h : Effect i s t) (hi : writesRes i = false) : t.res = s.res := by
  cases h with
  | absentRead r hp hread => obtain ⟨off, rfl | rfl⟩ := hread <;> cases hi
  | load r hload => obtain ⟨off, rfl | rfl | rfl⟩ := hload <;> cases hi
  | _ => rfl

theorem Effect.crcr (h : Effect i s t) (hi : writesCrcr i = false) : t.crcr = s.crcr := by
  cases h with
  | crccheck r c hcheck => subst hcheck; cases hi
  | store bs r hp hlen hin hr hpos => exact hr fun happly => by subst happly; cases hi
  | _ => rfl

theorem Effect.status_of_rdreg (h : Effect i s t) (hi : isLegalRdreg i = true) : t.status = s.status := by
  cases h with
  | fault c hc hnot => cases hi.symm.trans hnot
  | absentRead r hp hread => obtain ⟨off, rfl | rfl⟩ := hread <;> cases hi
  | msgnew hi' | msgdrop hi' | setlen n hi' | shrink n hi' | crccheck r c hi' => subst hi'; cases hi
  | load r hload => obtain ⟨off, rfl | rfl | rfl⟩ := hload <;> cases hi
  | store bs r hp hlen hin hr hpos => cases hi.symm.trans (isLegalRdreg_of_store hlen hpos)
  | rdreg v => rfl

/-- A byte that a command does not store to is as before, unless MSGNEW forgets it (R30, R57). -/
theorem Effect.readByte (h : Effect i s t) (hi : i ≠ .msgnew) {a : Nat} (ha : ¬ storesTo i s a) :
    readByte t a = readByte s a := by
  cases h with
  | msgnew hnew => exact absurd hnew hi
  | store bs r hp hlen hin hr hpos => rw [readByte_mk_insertAll, if_neg (hlen ▸ ha)]
  | _ => rfl

theorem Effect.draws (h : Effect i s t) (hi : i ≠ .msgnew) : t.draws = s.draws := by
  cases h with
  | msgnew hnew => exact absurd hnew hi
  | _ => rfl

theorem Effect.pending (h : Effect i s t) : t.pending = s.pending := by cases h <;> rfl

/-- Every command but a legal RDREG returns no value and gives `STATUS` the code of an outcome of the block (R86,
R221). -/
theorem Effect.status_produced (h : Effect i s t) (hi : isLegalRdreg i = false) :
    t.status ∈ Code.produced.map Code.value ∧ t.out = none := by
  cases h with
  | fault c hc =>
    have hfaults : [Code.noBuf, .tooLong, .tooShort, .inval] ⊆ Code.produced := by decide
    exact ⟨code_mem_produced (hfaults hc), rfl⟩
  | crccheck r c hcheck hc =>
    have houtcomes : [Code.ok, .badBuf] ⊆ Code.produced := by decide
    exact ⟨code_mem_produced (houtcomes hc), rfl⟩
  | absentRead => exact ⟨code_mem_produced (c := .noBuf) (by decide), rfl⟩
  | rdreg v hlegal => cases hlegal.symm.trans hi
  | msgnew | msgdrop | setlen | shrink | load | store => exact ⟨code_mem_produced (c := .ok) (by decide), rfl⟩

end

/-- Settles O16: the rules of `Effect`, one per field. -/
theorem commandsWriteOnlyWhatTheTableLists : Obligations.CommandsWriteOnlyWhatTheTableLists := fun _ _ _ h =>
  have heffect := exec_effect h
  ⟨heffect.present, heffect.len, heffect.res, heffect.crcr, heffect.status_of_rdreg,
    fun hi _ ha => heffect.readByte hi ha, heffect.draws, exec_keeps_cfg h, heffect.pending⟩

/-- Settles O17: of the steps only a reset and a command write bytes, and a command only those it stores to. -/
theorem byteChangesOnlyByStoreMsgnewOrReset : Obligations.ByteChangesOnlyByStoreMsgnewOrReset := by
  intro s t a hstep hchanged
  rcases step_cases hstep with ⟨-, rfl⟩ | ⟨rest, hpending, -⟩ | ⟨w, rest, i, hpending, hdecode, hexec⟩ |
    ⟨_, _, _, _, _, rfl⟩
  · exact absurd rfl hchanged
  · exact .inl ⟨rest, hpending⟩
  · refine .inr ⟨w, rest, i, hpending, hdecode, ?_⟩
    by_contra hno
    exact hchanged ((exec_effect hexec).readByte (fun hnew => hno (.inl hnew)) fun ha => hno (.inr ha))
  · exact absurd rfl hchanged

/-- Settles O18: the cases of `Effect` with a status other than `E_OK`; the others contradict the hypothesis. -/
theorem faultChangesOnlyTheStatus : Obligations.FaultChangesOnlyTheStatus := by
  intro i s t h hi hstatus
  cases exec_effect h with
  | fault c => exact ⟨rfl, fun hres => absurd rfl hres, fun hcrcr => absurd rfl hcrcr⟩
  | absentRead r hp hread => exact ⟨rfl, fun _ => ⟨hp, hread⟩, fun hcrcr => absurd rfl hcrcr⟩
  | crccheck r c hcheck hc =>
    have hbad : c = .badBuf := by
      rcases List.mem_pair.1 hc with rfl | hbad
      · exact absurd rfl hstatus
      · exact hbad
    exact ⟨rfl, fun hres => absurd rfl hres, fun _ => ⟨hcheck, hbad ▸ rfl⟩⟩
  | rdreg v hlegal => cases hlegal.symm.trans hi
  | msgnew | msgdrop | setlen | shrink | load | store => exact absurd rfl hstatus

/-- Settles O19: the codes that the block produces, none of which has bit 7. -/
theorem everyOtherCommandWritesAProducedStatus : Obligations.EveryOtherCommandWritesAProducedStatus := by
  intro i s t h hi
  obtain ⟨hstatus, hout⟩ := (exec_effect h).status_produced hi
  have hbit : ∀ b ∈ Code.produced.map Code.value, b.getLsbD 7 = false := by decide
  exact ⟨hstatus, hbit _ hstatus, hout⟩

/-- Settles O24: of the commands that write `LEN`, MSGNEW and MSGDROP make it 0 and SHRINK makes it no larger. -/
theorem lengthGrowsOnlyBySetlen : Obligations.LengthGrowsOnlyBySetlen := by
  intro i s t h hgrows
  cases exec_effect h with
  | setlen n hi => exact ⟨n, hi, rfl⟩
  | shrink n hi hp hn => exact absurd hgrows hn.not_gt
  | msgnew | msgdrop => exact absurd hgrows (Nat.not_lt_zero _)
  | fault | absentRead | load | rdreg | crccheck | store => exact absurd hgrows (Nat.lt_irrefl _)

/-! ### Stops -/

/-- RDREG goes on with every index. -/
theorem exec_rdreg_goes_on (idx : Word16) (s : State) : ∃ t, exec (.rdreg idx) s = .next t := by
  simp only [exec, execRdreg]
  cases Reg.ofIndex idx with
  | some r => exact ⟨_, rfl⟩
  | none => exact ⟨_, rfl⟩

/-- A command with a range check goes on, in range or out of it. -/
theorem exec_ranged_goes_on {i : Instr} {s : State} (hpos : 0 < (accessRange i).2) (hp : s.present = true) :
    ∃ t, exec i s = .next t := by
  rcases Nat.lt_or_ge s.cap ((accessRange i).1 + (accessRange i).2) with hr | hr
  · exact ⟨_, exec_out_of_range hpos hp hr⟩
  · exact (exec_in_range hpos hp hr).imp fun _ hexec => hexec.1

/-- A command goes on, but for a checksum command on a message longer than the buffer (notes/assumptions 12). -/
theorem exec_goes_on {i : Instr} {s : State}
    (h : i = .crcapply ∨ i = .crccheck → s.present = true → s.len.toNat ≤ s.cap) : ∃ t, exec i s = .next t := by
  by_cases habsent : needsMessage i = true ∧ s.present = false
  · exact ⟨_, exec_absent habsent.1 habsent.2⟩
  have hp (hneeds : needsMessage i = true) : s.present = true := by simpa [hneeds] using habsent
  cases i with
  | msgnew => exact ⟨_, rfl⟩
  | msgdrop => exact ⟨_, rfl⟩
  | rdreg idx => exact exec_rdreg_goes_on idx s
  | setlen n =>
    rcases Nat.lt_or_ge s.cap n.toNat with hn | hn
    · exact ⟨_, exec_setlen_too_long (hp rfl) hn⟩
    · exact ⟨_, exec_setlen_in (hp rfl) hn⟩
  | shrink n =>
    rcases Nat.lt_or_ge s.len.toNat n.toNat with hn | hn
    · exact ⟨_, exec_shrink_too_short (hp rfl) hn⟩
    · exact ⟨_, exec_shrink_in (hp rfl) hn⟩
  | crcapply =>
    rcases Nat.lt_or_ge s.len.toNat 2 with hl | hl
    · exact ⟨_, requireChecksumField_too_short (hp rfl) hl _⟩
    · exact ⟨_, exec_crcapply_in (hp rfl) hl (h (.inl rfl) (hp rfl))⟩
  | crccheck =>
    rcases Nat.lt_or_ge s.len.toNat 2 with hl | hl
    · exact ⟨_, requireChecksumField_too_short (hp rfl) hl _⟩
    · exact (exec_crccheck_in (hp rfl) hl (h (.inr rfl) (hp rfl))).imp' _ fun _ hexec => hexec.1
  | putb | getb | wrbe16 | rdbe16 | fpack | funpack => exact exec_ranged_goes_on (Nat.succ_pos _) (hp rfl)

/-- Settles O22: a checksum command on a message longer than the buffer stops, and every other command goes on. -/
theorem commandsStopOnlyOnALengthBeyondTheCapacity : Obligations.CommandsStopOnlyOnALengthBeyondTheCapacity := by
  intro i s
  by_cases hstops : (i = .crcapply ∨ i = .crccheck) ∧ s.present = true ∧ s.cap < s.len.toNat
  · obtain ⟨hi, hp, hc⟩ := hstops
    have hl : 2 ≤ s.len.toNat := by have := s.cap_pos; omega
    obtain ⟨off, n, hfault⟩ := exec_checksum_stops hi hp hc
    exact ⟨⟨fun _ => ⟨hi, hp, hc, hl⟩, fun _ => ⟨off, n, hfault⟩⟩, fun hno => absurd hfault (hno off n)⟩
  · obtain ⟨t, hnext⟩ := exec_goes_on fun hi hp => Nat.le_of_not_lt fun hc => hstops ⟨hi, hp, hc⟩
    refine ⟨⟨fun ⟨off, n, hfault⟩ => ?_, fun ⟨hi, hp, hc, _⟩ => absurd ⟨hi, hp, hc⟩ hstops⟩, fun _ => ⟨t, hnext⟩⟩
    cases hnext.symm.trans hfault

/-- Settles O23: every command that needs a message answers `exec_absent`; MSGDROP and RDREG read no byte. -/
theorem droppedMessageCannotBeRead : Obligations.DroppedMessageCannotBeRead := by
  intro i s m d hi hp
  by_cases hneeds : needsMessage i = true
  · have hres : absentRes i { s with msg := m, draws := d } = absentRes i s := absentRes_congr i rfl
    exact ⟨_, exec_absent hneeds hp, hres ▸ exec_absent (s := { s with msg := m, draws := d }) hneeds hp⟩
  · cases i with
    | msgnew => exact absurd rfl hi
    | msgdrop => exact ⟨_, rfl, rfl⟩
    | rdreg idx =>
      simp only [exec, execRdreg]
      cases Reg.ofIndex idx with
      | some r => cases r <;> exact ⟨_, rfl, rfl⟩
      | none => exact ⟨_, rfl, rfl⟩
    | _ => exact absurd rfl hneeds

/-! ### The invariant and safety -/

/-- Settles O12: reset has no message, an empty list of bytes, and `E_OK`. -/
theorem resetMeetsTheInvariant : Obligations.ResetMeetsTheInvariant :=
  ⟨Nat.zero_le _, fun _ => rfl, code_mem_produced (c := .ok) (by decide), reset_msg_wf⟩

theorem hostReset_inv (s : State) : (hostReset s).Inv :=
  ⟨Nat.zero_le _, fun _ => rfl, code_mem_produced (c := .ok) (by decide), Memory.wf_nil _⟩

/-- A command keeps the invariant: a new `LEN` is checked against `CAP` or the old one, and a store is inside the
buffer. -/
theorem exec_keeps_inv {i : Instr} {s t : State} (hinv : s.Inv) (h : exec i s = .next t) : t.Inv := by
  have hstatus : t.status ∈ Code.produced.map Code.value := by
    by_cases hi : isLegalRdreg i = true
    · exact (exec_effect h).status_of_rdreg hi ▸ hinv.status_produced
    · exact ((exec_effect h).status_produced (Bool.eq_false_iff.2 hi)).1
  cases exec_effect h with
  | msgnew => exact ⟨Nat.zero_le _, nofun, hstatus, Memory.wf_nil _⟩
  | msgdrop => exact ⟨Nat.zero_le _, fun _ => rfl, hstatus, hinv.msg_wf⟩
  | setlen n hi hp hn => exact ⟨hn, fun habsent => (nomatch hp.symm.trans habsent), hstatus, hinv.msg_wf⟩
  | shrink n hi hp hn =>
    exact ⟨hn.trans hinv.len_le_cap, fun habsent => (nomatch hp.symm.trans habsent), hstatus, hinv.msg_wf⟩
  | store bs r hp hlen hin =>
    exact ⟨hinv.len_le_cap, hinv.absent_len, hstatus, Memory.wf_insertAll hinv.msg_wf hin⟩
  | fault | absentRead | load | rdreg | crccheck => exact ⟨hinv.len_le_cap, hinv.absent_len, hstatus, hinv.msg_wf⟩

theorem State.Inv.withPending {s : State} (hinv : s.Inv) (rest : List HostStep) :
    ({ s with pending := rest } : State).Inv :=
  ⟨hinv.len_le_cap, hinv.absent_len, hinv.status_produced, hinv.msg_wf⟩

/-- Settles O13: each case of `step_cases` keeps the invariant. -/
theorem everyStepKeepsTheInvariant : Obligations.EveryStepKeepsTheInvariant := by
  intro s t hinv hstep
  rcases step_cases hstep with ⟨-, rfl⟩ | ⟨rest, -, rfl⟩ | ⟨w, rest, i, -, -, hexec⟩ | ⟨w, rest, e, -, -, rfl⟩
  · exact hinv
  · exact hostReset_inv _
  · exact exec_keeps_inv (hinv.withPending rest) hexec
  · exact ⟨hinv.len_le_cap, hinv.absent_len, code_mem_produced (c := .inval) (by decide), hinv.msg_wf⟩

/-- A step from a state that meets the invariant goes on: the one stop needs a length beyond the capacity. -/
theorem step_goes_on {s : State} (hinv : s.Inv) : ∃ t, step s = .next t := by
  cases hpending : s.pending with
  | nil => exact ⟨s, blockIsPassiveBetweenHostSteps s hpending⟩
  | cons hostStep rest =>
    cases hostStep with
    | reset => exact (resetStepGivesTheResetValues s rest hpending).imp fun _ hreset => hreset.1
    | command w =>
      cases hdecode : decode w with
      | ok i =>
        obtain ⟨t, ht⟩ := exec_goes_on (i := i) (s := { s with pending := rest }) fun _ _ => hinv.len_le_cap
        exact ⟨t, (stepExecutesTheDecodedCommand s w rest i hpending hdecode).trans ht⟩
      | error e => exact ⟨_, illegalWordChangesOnlyTheStatus s w rest e hpending hdecode⟩

/-- Settles O14: by induction on the length of the run, as every step goes on and keeps the invariant. -/
theorem everyRunIsSafe : Obligations.EveryRunIsSafe := by
  intro s hinv k
  induction k generalizing s with
  | zero => exact ⟨s, rfl⟩
  | succ k ih =>
    obtain ⟨u, hstep⟩ := step_goes_on hinv
    obtain ⟨t, hrun⟩ := ih u (everyStepKeepsTheInvariant s u hinv hstep)
    have hcore : Sys2Proof.core.step s = .next u := hstep
    exact ⟨t, by simpa only [Host.Core.run, hcore] using hrun⟩

end Sys2Proof.Machine
end

section
/-! The checksum of a message (42_checksum.md R129, R130): CRCAPPLY makes the message verify, one changed byte of the
covered region makes it fail, and no byte beyond the length matters. -/

namespace Sys2Proof.Machine

/-! ### What verification reads -/

/-- The covered region is the same in two states of one length whose bytes below it agree (R123). -/
theorem coveredRegion_congr {s t : State} (hlen : t.len = s.len)
    (hbytes : ∀ a, a < s.len.toNat - 2 → readByte t a = readByte s a) : coveredRegion t = coveredRegion s := by
  rw [coveredRegion, coveredRegion, hlen]
  exact readBytes_congr fun a _ ha => hbytes a (by omega)

/-- Whether a message of at least two bytes verifies depends on the bytes below `LEN` only (R129). -/
theorem verifies_congr {s t : State} (hlen : t.len = s.len) (hl : 2 ≤ s.len.toNat)
    (hbytes : ∀ a, a < s.len.toNat → readByte t a = readByte s a) : Verifies t ↔ Verifies s := by
  rw [Verifies, Verifies, coveredRegion_congr hlen fun a ha => hbytes a (by omega), hlen, hbytes _ (by omega),
    hbytes _ (by omega)]

/-! ### CRCAPPLY makes the message verify -/

/-- What CRCAPPLY leaves: a message that verifies, with `CRCR` its register and the bytes outside the checksum field as
before. -/
theorem exec_crcapply_verifies {s : State} (hp : s.present = true) (hl : 2 ≤ s.len.toNat) (hc : s.len.toNat ≤ s.cap) :
    ∃ t, exec .crcapply s = .next t ∧ t.present = true ∧ t.len = s.len ∧ t.cfg = s.cfg ∧ Verifies t ∧
      t.crcr = crc16 (coveredRegion t) ∧
      ∀ a, a < s.len.toNat - 2 ∨ s.len.toNat ≤ a → readByte t a = readByte s a := by
  have hlast : s.len.toNat - 1 = s.len.toNat - 2 + 1 := by omega
  have hexec := exec_crcapply_in hp hl hc
  rw [be16Enc_swap16] at hexec
  set t := stored (s.len.toNat - 2) _ { s with crcr := crc16 (coveredRegion s) }
  have hframe (a : Nat) (ha : a < s.len.toNat - 2 ∨ s.len.toNat ≤ a) : readByte t a = readByte s a := by
    have hout : a < s.len.toNat - 2 ∨ s.len.toNat - 2 + 2 ≤ a := by omega
    exact readByte_stored_outside _ hout
  have hcovered : coveredRegion t = coveredRegion s := coveredRegion_congr rfl fun a ha => hframe a (.inl ha)
  refine ⟨t, hexec, hp, rfl, rfl, ⟨?low, ?high⟩, congrArg crc16 hcovered.symm, hframe⟩
  case low => rw [hcovered]; exact readByte_stored_inside _ _ (bs := [_, _]) Nat.two_pos
  case high =>
    rw [hcovered, show t.len.toNat - 1 = s.len.toNat - 2 + 1 from hlast]
    exact readByte_stored_inside _ _ (bs := [_, _]) Nat.one_lt_two

/-- Settles O38: CRCAPPLY leaves a message that verifies, and CRCCHECK then recomputes the same register. -/
theorem appliedChecksumAlwaysVerifies : Obligations.AppliedChecksumAlwaysVerifies := by
  intro s n hp hn hc
  obtain ⟨u, happly, hup, hulen, hucfg, hverifies, hcrcr, -⟩ :=
    exec_crcapply_verifies (s := { s with len := n, status := 0x00#8, out := none }) hp hn hc
  have hucap : u.len.toNat ≤ u.cap := by rw [hulen, cap_eq_of_cfg hucfg]; exact hc
  obtain ⟨c, hcheck, hgood, -⟩ := exec_crccheck_in hup (hulen ▸ hn) hucap
  exact ⟨_, u, _, exec_setlen_in hp hc, happly, hcheck, hgood hverifies, hcrcr.symm, fun _ => rfl⟩

/-! ### A changed byte makes it fail -/

/-- A register is its two halves. -/
theorem eq_of_halves_eq {r r' : Word16} (hlow : r.extractLsb' 0 8 = r'.extractLsb' 0 8)
    (hhigh : r.extractLsb' 8 8 = r'.extractLsb' 8 8) : r = r' := by
  rw [← be16Dec_halves r, ← be16Dec_halves r', hlow, hhigh]

/-- One changed byte of the covered region changes its register, as no byte step loses anything (R130). -/
theorem crc16_coveredRegion_ne {s t : State} {i : Nat} (hlen : t.len = s.len) (hi : i < s.len.toNat - 2)
    (hne : readByte t i ≠ readByte s i) (hother : ∀ a, a ≠ i → readByte t a = readByte s a) :
    crc16 (coveredRegion t) ≠ crc16 (coveredRegion s) := by
  intro heq
  have hbefore : readBytes t 0 i = readBytes s 0 i := readBytes_congr fun a _ ha => hother a (by omega)
  have hafter : readBytes t (i + 1) (s.len.toNat - 2 - (i + 1)) = readBytes s (i + 1) (s.len.toNat - 2 - (i + 1)) :=
    readBytes_congr fun a ha _ => hother a (by omega)
  rw [coveredRegion, coveredRegion, hlen, readBytes_split t _ i hi, readBytes_split s _ i hi, hbefore, hafter] at heq
  exact hne (crc16_inj_at _ _ heq)

theorem xor_bit_ne (b : Byte) {k : Nat} (hk : k < 8) : b ^^^ (1#8 <<< k) ≠ b := by
  have hbit : ∀ k < 8, 1#8 <<< k ≠ 0#8 := by decide
  exact fun h => hbit k hk (BitVec.xor_right_inj b |>.1 (h.trans BitVec.xor_zero.symm))

/-- Settles O39: the stored checksum is still that of the old region, and the register of the changed region differs. -/
theorem singleBitFlipNeverVerifies : Obligations.SingleBitFlipNeverVerifies := by
  intro s i k hp hl hc hi hk
  obtain ⟨t, happly, htp, htlen, htcfg, ⟨htlow, hthigh⟩, -, -⟩ := exec_crcapply_verifies hp hl hc
  have htcap : t.cap = s.cap := cap_eq_of_cfg htcfg
  set flipped := readByte t i.toNat ^^^ (1#8 <<< k)
  set u := stored i.toNat [flipped] t
  have hput : exec (.putb i flipped) t = .next u := exec_putb_in htp (by omega) flipped
  have hsame (a : Nat) (ha : a ≠ i.toNat) : readByte u a = readByte t a :=
    readByte_stored_outside t (Nat.lt_or_gt_of_ne ha)
  have hne : readByte u i.toNat ≠ readByte t i.toNat := by
    rw [show readByte u i.toNat = flipped from readByte_stored_inside i.toNat t (bs := [flipped]) Nat.one_pos]
    exact xor_bit_ne _ hk
  have hfails : ¬ Verifies u := by
    rintro ⟨hulow, huhigh⟩
    rw [hsame _ (by rw [show u.len = s.len from htlen]; omega), show u.len = t.len from rfl] at hulow huhigh
    have hregister : crc16 (coveredRegion u) = crc16 (coveredRegion t) :=
      eq_of_halves_eq (hulow.symm.trans htlow) (huhigh.symm.trans hthigh)
    exact crc16_coveredRegion_ne (s := t) (t := u) rfl (htlen ▸ hi) hne hsame hregister
  have hulen : u.len = s.len := htlen
  obtain ⟨c, hcheck, -, hbad⟩ := exec_crccheck_in (s := u) htp (hulen ▸ hl)
    (by rw [hulen]; exact hc.trans_eq htcap.symm)
  exact ⟨t, u, _, happly, hput, hcheck, hbad hfails⟩

/-! ### Bytes beyond the length -/

/-- Settles O40: the checks before the verification read no byte, and the verification is `verifies_congr`. -/
theorem verificationIgnoresBytesBeyondTheLength : Obligations.VerificationIgnoresBytesBeyondTheLength := by
  intro s s' t hpresent hlen hcfg hcrcr hbytes hexec
  cases hp : s.present with
  | false =>
    cases (exec_absent rfl hp).symm.trans hexec
    exact ⟨_, exec_absent rfl (hpresent.trans hp), rfl, hcrcr⟩
  | true =>
    have hp' : s'.present = true := hpresent.trans hp
    rcases Nat.lt_or_ge s.len.toNat 2 with hl | hl
    · cases (requireChecksumField_too_short hp hl _).symm.trans hexec
      exact ⟨_, requireChecksumField_too_short hp' (hlen ▸ hl) _, rfl, hcrcr⟩
    rcases Nat.lt_or_ge s.cap s.len.toNat with hc | hc
    · obtain ⟨off, n, hfault⟩ := exec_checksum_stops (.inr rfl) hp hc
      cases hfault.symm.trans hexec
    obtain ⟨c, hcheck, hgood, hbad⟩ := exec_crccheck_in hp hl hc
    obtain ⟨c', hcheck', hgood', hbad'⟩ := exec_crccheck_in hp' (hlen ▸ hl) (by rw [hlen, cap_eq_of_cfg hcfg]; exact hc)
    have hiff : Verifies s' ↔ Verifies s := verifies_congr hlen hl hbytes
    have hcovered : coveredRegion s' = coveredRegion s := coveredRegion_congr hlen fun a ha => hbytes a (by omega)
    cases hcheck.symm.trans hexec
    refine ⟨_, hcheck', ?_, congrArg crc16 hcovered⟩
    by_cases hv : Verifies s
    · exact (hgood' (hiff.2 hv)).trans (hgood hv).symm
    · exact (hbad' (mt hiff.1 hv)).trans (hbad hv).symm

end Sys2Proof.Machine
end

section
/-! The float codec (43_float_codec.md): FPACK and FUNPACK case by case, their round trips, and the exact numbers that
their patterns denote. -/

namespace Sys2Proof.Machine

/-! ### Packing and unpacking as functions -/

theorem isNormal_iff (f : Word32) : isNormal f = true ↔ 1 ≤ (floatExp f).toNat ∧ (floatExp f).toNat ≤ 254 :=
  decide_eq_true_iff

theorem pack_of_normal {f : Word32} (h : isNormal f = true) : pack f = packNormal f := if_pos h

theorem pack_of_not_normal {f : Word32} (h : ¬ isNormal f = true) : pack f = Config.fpackNonnormal f := if_neg h

theorem unpack_of_normal {p : PackedFloat} (h1 : 1 ≤ packedExp p) (h2 : packedExp p ≤ 254) :
    unpack p = p.byte2 ++ p.byte3 ++ p.byte0 ++ p.byte1 := if_pos ⟨h1, h2⟩

/-- The two classes without a formula in the source (R152). -/
theorem unpack_of_open {p : PackedFloat} (h : packedExp p = 0 ∧ packedMantissa p % 2 = 1 ∨ packedExp p = 255) :
    unpack p = Config.funpackNonexact p := by
  rw [unpack, if_neg (by omega), if_neg (by omega)]

theorem packedSign_eq_getLsbD (p : PackedFloat) : packedSign p = p.byte2.getLsbD 7 := by
  have hbit : ∀ b : Byte, (b &&& 0x80#8 != 0#8) = b.getLsbD 7 := by decide
  exact hbit p.byte2

/-- The packed bytes of a normal operand, as numbers (R144). -/
theorem packNormal_toNat (f : Word32) :
    (packNormal f).byte0.toNat = f.toNat / 2 ^ 8 % 256 ∧ (packNormal f).byte1.toNat = f.toNat % 256 ∧
      (packNormal f).byte2.toNat = f.toNat / 2 ^ 24 % 256 ∧ (packNormal f).byte3.toNat = f.toNat / 2 ^ 16 % 256 := by
  simp [packNormal, Nat.shiftRight_eq_div_pow]

theorem packedFloat_ext {p q : PackedFloat} (h0 : p.byte0.toNat = q.byte0.toNat) (h1 : p.byte1.toNat = q.byte1.toNat)
    (h2 : p.byte2.toNat = q.byte2.toNat) (h3 : p.byte3.toNat = q.byte3.toNat) : p = q := by
  cases p
  cases q
  rw [PackedFloat.mk.injEq]
  exact ⟨BitVec.eq_of_toNat_eq h0, BitVec.eq_of_toNat_eq h1, BitVec.eq_of_toNat_eq h2, BitVec.eq_of_toNat_eq h3⟩

/-- Packing keeps the exponent field (R141, R150). -/
theorem packedExp_packNormal (f : Word32) : packedExp (packNormal f) = (floatExp f).toNat := by
  obtain ⟨-, -, h2, h3⟩ := packNormal_toNat f
  rw [packedExp_eq, floatExp_eq, h2, h3]
  omega

/-- R155 (a): unpacking undoes packing. -/
theorem unpack_packNormal {f : Word32} (h : isNormal f = true) : unpack (packNormal f) = f := by
  obtain ⟨hlow, hhigh⟩ := (isNormal_iff f).1 h
  rw [← packedExp_packNormal] at hlow hhigh
  obtain ⟨h0, h1, h2, h3⟩ := packNormal_toNat f
  apply BitVec.eq_of_toNat_eq
  rw [unpack_toNat_normal _ hlow hhigh, h0, h1, h2, h3]
  have := f.isLt
  omega

/-- The fields of what FUNPACK makes of a packed float with `1 <= be <= 254` are those of R150. -/
theorem unpack_fields_normal {p : PackedFloat} (h1 : 1 ≤ packedExp p) (h2 : packedExp p ≤ 254) :
    (floatSign (unpack p) == 1#1) = packedSign p ∧ (floatExp (unpack p)).toNat = packedExp p ∧
      2 ^ 23 + (floatFrac (unpack p)).toNat = packedMantissa p := by
  have h := unpack_toNat_normal p h1 h2
  have := p.byte0.isLt
  have := p.byte1.isLt
  have := p.byte2.isLt
  have := p.byte3.isLt
  refine ⟨?_, ?_, ?_⟩
  · rw [floatSign_eq, packedSign_eq, h, decide_eq_decide]; omega
  · rw [floatExp_eq, packedExp_eq, h]; omega
  · rw [floatFrac_eq, packedMantissa_eq, h]; omega

/-- The fields of the subnormal pattern that FUNPACK makes for `be = 0` with `m` even (R152). -/
theorem unpack_fields_subnormal {p : PackedFloat} (h0 : packedExp p = 0) (heven : packedMantissa p % 2 = 0) :
    (floatSign (unpack p) == 1#1) = packedSign p ∧ floatExp (unpack p) = 0x00#8 ∧
      2 * (floatFrac (unpack p)).toNat = packedMantissa p := by
  have h := unpack_toNat_sub p h0 heven
  have hm := packedMantissa_eq p
  have := p.byte0.isLt
  have := p.byte1.isLt
  have := p.byte3.isLt
  rw [floatSign_eq, ← BitVec.toNat_inj, floatExp_eq, floatFrac_eq, h]
  cases packedSign p with
  | true => exact ⟨decide_eq_true (by simp), by simp; omega, by simp; omega⟩
  | false => exact ⟨decide_eq_false (by simp; omega), by simp; omega, by simp; omega⟩

theorem isNormal_unpack {p : PackedFloat} (h1 : 1 ≤ packedExp p) (h2 : packedExp p ≤ 254) :
    isNormal (unpack p) = true := by
  obtain ⟨-, hexp, -⟩ := unpack_fields_normal h1 h2
  exact (isNormal_iff _).2 ⟨hexp ▸ h1, hexp ▸ h2⟩

/-- R155 (b): packing undoes unpacking. -/
theorem pack_unpack {p : PackedFloat} (h1 : 1 ≤ packedExp p) (h2 : packedExp p ≤ 254) : pack (unpack p) = p := by
  obtain ⟨e0, e1, e2, e3⟩ := packNormal_toNat (unpack p)
  rw [unpack_toNat_normal p h1 h2] at e0 e1 e2 e3
  have := p.byte0.isLt
  have := p.byte1.isLt
  have := p.byte2.isLt
  have := p.byte3.isLt
  rw [pack_of_normal (isNormal_unpack h1 h2)]
  exact packedFloat_ext (by omega) (by omega) (by omega) (by omega)

/-! ### The commands -/

/-- A packed float that was stored is read back (R59). -/
theorem packedAt_stored (off : Nat) (p : PackedFloat) (s : State) : packedAt (stored off (packedBytes p) s) off = p :=
  congrArg packedOfList (readBytes_stored off (packedBytes p) s)

/-- Settles O41: the store is the four bytes of `pack`, which its operand's exponent field decides. -/
theorem fpackStoresThePackedFloat : Obligations.FpackStoresThePackedFloat := by
  intro off f s
  refine ⟨exec_absent rfl, exec_out_of_range (i := .fpack off f) (Nat.succ_pos 3), fun hp hr =>
    ⟨_, exec_fpack_in hp hr f, rfl, fun hlow hhigh => ?normal, fun hexp => ?nonNormal,
      fun _ => readByte_stored_outside (bs := packedBytes (pack f)) s⟩⟩
  case normal =>
    have hnormal : isNormal f = true := (isNormal_iff f).2 ⟨hlow, hhigh⟩
    rw [pack_of_normal hnormal]
    exact readBytes_stored off.toNat (packedBytes (packNormal f)) s
  case nonNormal =>
    have hnot : ¬ isNormal f = true := by
      rw [isNormal_iff]
      rcases hexp with h | h <;> simp [floatExp, h]
    rw [pack_of_not_normal hnot]
    exact readBytes_stored off.toNat (packedBytes (Config.fpackNonnormal f)) s

/-- Settles O42: the result is `unpack` of the four bytes, one equation per class. -/
theorem funpackDecodesThePackedFloat : Obligations.FunpackDecodesThePackedFloat := by
  intro off s
  refine ⟨exec_absent rfl, exec_out_of_range (i := .funpack off) (Nat.succ_pos 3), fun hp hr =>
    ⟨_, _, _, _, _, readBytes_four s off.toNat, exec_funpack_in hp hr, unpack_of_normal, fun h0 heven => ?subnormal,
      fun h0 hodd => unpack_of_open (.inl ⟨h0, hodd⟩), fun h => unpack_of_open (.inr h)⟩⟩
  case subnormal =>
    exact (unpack_toNat_sub (packedAt s off.toNat) h0 heven).trans (by rw [packedSign_eq_getLsbD]; rfl)

/-- Settles O43: the sentinel is a NaN pattern by its form, and a result with `1 <= be <= 254` has exponent field
`be`. -/
theorem funpackGivesANaNWhenAbsentAndANormalForBe1To254 :
    Obligations.FunpackGivesANaNWhenAbsentAndANormalForBe1To254 := fun _ _ =>
  ⟨fun hp => ⟨_, exec_absent rfl hp, isNaN_append Config.nanSign Config.nanFractionLess1⟩,
    fun hp hr h1 h2 => ⟨_, exec_funpack_in hp hr, isNormal_unpack h1 h2⟩⟩

/-- Settles O44: the packed float stored is the one read back, and `unpack` undoes `packNormal`. -/
theorem floatRoundTripIsExact : Obligations.FloatRoundTripIsExact := by
  intro off f s hp hr hnormal
  refine ⟨_, _, exec_fpack_in hp hr f, exec_funpack_in hp hr, ?_, rfl⟩
  calc unpack (packedAt (stored off.toNat (packedBytes (pack f)) s) off.toNat)
    _ = unpack (packNormal f) := by rw [packedAt_stored, pack_of_normal hnormal]
    _ = f := unpack_packNormal hnormal

/-- Storing the bytes that are already there changes no byte. -/
theorem readByte_stored_self {s t : State} (hbytes : ∀ a, readByte t a = readByte s a) (off n a : Nat) :
    readByte (stored off (readBytes s off n) t) a = readByte s a := by
  rw [readByte_stored, readBytes_length]
  split
  · next hin =>
    rw [readBytes_getElem? s off n (a - off) (by omega), Option.getD_some, Nat.add_sub_cancel' hin.1]
  · exact hbytes a

/-- Settles O45: `pack` undoes `unpack`, so FPACK stores the four bytes that FUNPACK read. -/
theorem packedRoundTripRewritesTheSameBytes : Obligations.PackedRoundTripRewritesTheSameBytes := by
  intro off s hp hr h1 h2
  set t : State := { s with res := unpack (packedAt s off.toNat), status := 0x00#8, out := none }
  refine ⟨t, _, exec_funpack_in hp hr, exec_fpack_in (s := t) hp hr t.res, fun a => ?_⟩
  have hsame : packedBytes (pack (unpack (packedAt s off.toNat))) = readBytes s off.toNat 4 := by
    rw [pack_unpack h1 h2]; rfl
  rw [show t.res = unpack (packedAt s off.toNat) from rfl, hsame]
  exact readByte_stored_self (fun _ => rfl) _ _ a

/-! ### Bytes at other widths (R54) -/

/-- An offset that an access in range ends at does not wrap (R52). -/
theorem toNat_add_of_le_cap {off k : Word16} {s : State} (h : off.toNat + k.toNat ≤ s.cap) :
    (off + k).toNat = off.toNat + k.toNat := by
  have := s.cap_le
  rw [BitVec.toNat_add]
  omega

/-- The first two packed bytes as a word are the low half of the operand, and the last two its high half (R144). -/
theorem be16Dec_packNormal_first (f : Word32) :
    be16Dec (packNormal f).byte0 (packNormal f).byte1 = f.extractLsb' 0 16 :=
  BitVec.extractLsb'_append_extractLsb'_eq_extractLsb' rfl

theorem be16Dec_packNormal_last (f : Word32) :
    be16Dec (packNormal f).byte2 (packNormal f).byte3 = f.extractLsb' 16 16 :=
  BitVec.extractLsb'_append_extractLsb'_eq_extractLsb' rfl

/-- Settles O48: the bytes of each store, read one by one or as words. -/
theorem mixedWidthReadsSeeTheStoredBytes : Obligations.MixedWidthReadsSeeTheStoredBytes := by
  intro off s hp
  refine ⟨fun hr v => ?word, fun hr f hnormal => ?float⟩
  case word =>
    set t := stored off.toNat (be16Enc v) s
    have hoff : (off + 1#16).toNat = off.toNat + 1 := toNat_add_of_le_cap (s := s) (Nat.le_of_succ_le hr)
    have hhigh : readByte t off.toNat = v.extractLsb' 8 8 :=
      readByte_stored_inside off.toNat s (bs := be16Enc v) Nat.two_pos
    have hlow : readByte t (off.toNat + 1) = v.extractLsb' 0 8 :=
      readByte_stored_inside off.toNat s (bs := be16Enc v) Nat.one_lt_two
    refine ⟨t, _, _, _, exec_wrbe16_in hp hr v, exec_getb_in hp (Nat.le_of_succ_le hr), ?_,
      exec_getb_in hp (hoff ▸ hr), ?_, exec_rdbe16_in hp hr, ?_⟩
    · rw [hhigh]
    · rw [hoff, hlow]
    · rw [hhigh, hlow, be16Dec_halves]
  case float =>
    have hoff : (off + 2#16).toNat = off.toNat + 2 :=
      toNat_add_of_le_cap (s := s) (Nat.le_of_succ_le (Nat.le_of_succ_le hr))
    set t := stored off.toNat (packedBytes (packNormal f)) s
    have hbyte (k : Nat) (hk : k < 4) : readByte t (off.toNat + k) = (packedBytes (packNormal f))[k] :=
      readByte_stored_inside off.toNat s (bs := packedBytes (packNormal f)) hk
    have hexec : exec (.fpack off f) s = .next t := by rw [exec_fpack_in hp hr f, pack_of_normal hnormal]
    have hfirst : off.toNat + 2 ≤ s.cap := by omega
    refine ⟨t, _, _, hexec, exec_rdbe16_in hp hfirst, ?_, exec_rdbe16_in hp (hoff ▸ hr), ?_⟩
    · rw [hbyte 1 (by decide), show readByte t off.toNat = _ from hbyte 0 (by decide)]
      exact congrArg (BitVec.setWidth 32) (be16Dec_packNormal_first f)
    · rw [hoff, hbyte 2 (by decide), hbyte 3 (by decide)]
      exact congrArg (BitVec.setWidth 32) (be16Dec_packNormal_last f)

end Sys2Proof.Machine
end

section
/-! The exact numbers of the float codec (43_float_codec.md R141 to R143, R151): what FPACK stores and what FUNPACK
gives denote exactly the number of the pattern they come from (notes/assumptions 8). -/

namespace Sys2Proof.Machine

/-! ### What a pattern denotes -/

/-- The magnitude of a normal pattern: `(1 + F/2^23) x 2^(E-127)` (R143). -/
theorem floatValue_of_normal {f : Word32} (h : isNormal f = true) :
    floatValue f = some (signFactor (floatSign f == 1#1) * (1 + (floatFrac f).toNat / 2 ^ 23) *
      2 ^ ((floatExp f).toNat - 127 : ℤ)) := if_pos h

theorem floatValue_of_exp_zero {f : Word32} (h : floatExp f = 0x00#8) :
    floatValue f = some (signFactor (floatSign f == 1#1) * (floatFrac f).toNat * 2 ^ (-149 : ℤ)) := by
  have hnot : ¬ isNormal f = true := by rw [isNormal_iff, h]; decide
  exact (if_neg hnot).trans (if_pos h)

theorem abs_signFactor_mul (negative : Bool) {x : ℚ} (hx : 0 ≤ x) : |signFactor negative * x| = x := by
  cases negative with
  | true => rw [signFactor, if_pos rfl, neg_one_mul, abs_neg, abs_of_nonneg hx]
  | false => rw [signFactor, if_neg (by decide), one_mul, abs_of_nonneg hx]

theorem signFactor_mul_neg_iff (negative : Bool) {x : ℚ} (hx : 0 < x) :
    signFactor negative * x < 0 ↔ negative = true := by
  cases negative with
  | true => simp [signFactor, hx]
  | false => simp [signFactor, hx.le]

/-! ### The source's encoding -/

/-- A positive number has one exponent with a fraction in [0.5, 1) (R141): against a fraction in [1, 2) it is one more,
and the fraction is half. -/
theorem eq_of_fraction_mul_zpow_eq {x y : ℚ} {a b : ℤ} (hx : 1 ≤ x) (hx2 : x < 2) (hy : 1 / 2 ≤ y) (hy1 : y < 1)
    (h : x * 2 ^ a = y * 2 ^ b) : b = a + 1 ∧ y = x / 2 := by
  have hpos (n : ℤ) : (0 : ℚ) < 2 ^ n := zpow_pos two_pos n
  have hb : y * 2 ^ b = 2 * y * 2 ^ (b - 1) := by rw [zpow_sub_one₀ two_ne_zero]; ring
  have hlt {u v : ℚ} {m n : ℤ} (hu : 1 ≤ u) (hv : v < 2) (huv : u * 2 ^ m = v * 2 ^ n) : m < n + 1 := by
    rw [← zpow_lt_zpow_iff_right₀ (one_lt_two (α := ℚ)), zpow_add_one₀ two_ne_zero]
    calc (2 : ℚ) ^ m
      _ ≤ u * 2 ^ m := le_mul_of_one_le_left (hpos m).le hu
      _ = v * 2 ^ n := huv
      _ < 2 ^ n * 2 := by rw [mul_comm]; exact mul_lt_mul_of_pos_left hv (hpos n)
  rw [hb] at h
  have hab : a = b - 1 :=
    le_antisymm (Int.lt_add_one_iff.1 (hlt hx (by linarith) h)) (Int.lt_add_one_iff.1 (hlt (by linarith) hx2 h.symm))
  rw [hab] at h
  have := mul_right_cancel₀ (hpos (b - 1)).ne' h
  exact ⟨by omega, by linarith⟩

/-- Settles O46: the fraction `fm` is half of `1 + F/2^23`, so `m = 2^23 + F` and the biased exponent is `E`; with these
`packFormula` is `packNormal`. -/
theorem fpackFollowsTheSourceEncoding : Obligations.FpackFollowsTheSourceEncoding := by
  intro f val fm e hnormal hval hfm hfm1 habs
  obtain ⟨hexp1, hexp254⟩ := (isNormal_iff f).1 hnormal
  have hfrac : (floatFrac f).toNat < 2 ^ 23 := (floatFrac f).isLt
  rw [floatValue_of_normal hnormal, Option.some_inj, mul_assoc] at hval
  set F := (floatFrac f).toNat
  set E := (floatExp f).toNat
  have hF : (F : ℚ) / 2 ^ 23 < 1 := by rw [div_lt_one (by positivity)]; exact_mod_cast hfrac
  have hmag : (0 : ℚ) < (1 + F / 2 ^ 23) * 2 ^ (E - 127 : ℤ) := by positivity
  rw [← hval, abs_signFactor_mul _ hmag.le] at habs
  obtain ⟨he, hhalf⟩ := eq_of_fraction_mul_zpow_eq (le_add_of_nonneg_right (by positivity)) (by linarith) hfm hfm1 habs
  have hm : ⌊fm * 2 ^ 24⌋ = (2 ^ 23 + F : ℕ) := by
    rw [Int.floor_eq_iff, hhalf]
    push_cast
    constructor <;> linarith
  have hbe : (e + 126).toNat = E := by omega
  have hsign : decide (val < 0) = (floatSign f == 1#1) := by
    rw [← hval, Bool.eq_iff_iff, decide_eq_true_iff, signFactor_mul_neg_iff _ hmag]
  refine ⟨by omega, by omega, by omega, by omega, ?_⟩
  rw [pack_of_normal hnormal, packFormula_normal f hnormal, hm, Int.toNat_natCast, hbe, hsign]

/-! ### The decoded value -/

/-- The number `± m x 2^(be - 150)` of R151, for each of the two classes that the rules settle. -/
theorem floatValue_unpack {p : PackedFloat}
    (h : 1 ≤ packedExp p ∧ packedExp p ≤ 254 ∨ packedExp p = 0 ∧ packedMantissa p % 2 = 0) :
    floatValue (unpack p) = some (packedValue p) := by
  rcases h with ⟨h1, h2⟩ | ⟨h0, heven⟩
  · obtain ⟨hsign, hexp, hfrac⟩ := unpack_fields_normal h1 h2
    have hpow : (2 : ℚ) ^ (packedExp p - 127 : ℤ) = 2 ^ 23 * 2 ^ (packedExp p - 150 : ℤ) := by
      rw [← zpow_natCast, ← zpow_add₀ two_ne_zero]; congr 1; push_cast; ring
    rw [floatValue_of_normal (isNormal_unpack h1 h2), hsign, hexp, packedValue, ← hfrac, hpow]
    congr 1; push_cast; ring
  · obtain ⟨hsign, hexp, hfrac⟩ := unpack_fields_subnormal h0 heven
    have hpow : (2 : ℚ) ^ (-149 : ℤ) = 2 * 2 ^ (packedExp p - 150 : ℤ) := by
      rw [h0, ← zpow_one_add₀ two_ne_zero]; congr 1
    rw [floatValue_of_exp_zero hexp, hsign, packedValue, ← hfrac, hpow]
    congr 1; push_cast; ring

/-- Settles O47: the result of FUNPACK is `unpack` of the four bytes, which denotes their number. -/
theorem funpackResultIsTheExactValue : Obligations.FunpackResultIsTheExactValue := fun _ _ hp hr hclass =>
  ⟨_, exec_funpack_in hp hr, floatValue_unpack hclass⟩

end Sys2Proof.Machine
end

section
/-! What the host sequences share (45_host_sequences.md): the checksum commands as steps of a sequence, a length that
SETLEN refuses, the header of a request, and the length and checksum tests of a parser. -/

namespace Sys2Proof.Machine

/-! ### The checksum commands as steps -/

theorem issue_crcapply_step {s : State} (hp : s.present = true) (hl : 2 ≤ s.len.toNat) (hc : s.len.toNat ≤ s.cap)
    (k : State → SeqResult) :
    ∃ t, issue .crcapply s k = k t ∧ t.present = true ∧ t.len = s.len ∧ t.cfg = s.cfg ∧ Verifies t ∧
      ∀ a, a < s.len.toNat - 2 ∨ s.len.toNat ≤ a → readByte t a = readByte s a := by
  obtain ⟨t, hexec, htp, htl, htc, hverifies, -, hframe⟩ := exec_crcapply_verifies hp hl hc
  exact ⟨t, issue_next hexec k, htp, htl, htc, hverifies, hframe⟩

theorem issue_crccheck_step {s : State} (hp : s.present = true) (hl : 2 ≤ s.len.toNat) (hc : s.len.toNat ≤ s.cap)
    (k : State → SeqResult) :
    ∃ t, issue .crccheck s k = k t ∧ SameMessage s t ∧ (Verifies s → t.status = 0x00#8) ∧
      (¬ Verifies s → t.status = 0x04#8) := by
  obtain ⟨c, hexec, hgood, hbad⟩ := exec_crccheck_in hp hl hc
  exact ⟨_, issue_next hexec k, ⟨rfl, rfl, rfl, fun _ => rfl⟩, hgood, hbad⟩

/-- CHECK_CHECKSUM of a message that verifies (R195). -/
theorem checkChecksum_of_verifies {s : State} (hp : s.present = true) (hl : 2 ≤ s.len.toNat) (hc : s.len.toNat ≤ s.cap)
    (hverifies : Verifies s) : ∃ e, checkChecksum s = .next e ∧ e.outcome = 0x00#8 := by
  obtain ⟨t, hissue, -, hgood, -⟩ := issue_crccheck_step hp hl hc fun s =>
    fetchReg .status s fun st s => .next ⟨st.setWidth 8, {}, s⟩
  refine ⟨_, hissue.trans (fetchReg_eq .status t _), ?_⟩
  simp [readReg, hgood hverifies]

/-! ### A request -/

/-- A length beyond the capacity ends a request with MessageTooLong (R192 to R194). -/
theorem issue_setlen_too_long {n : Word16} {s : State} (hp : s.present = true) (hn : s.cap < n.toNat)
    (k : State → SeqResult) :
    ∃ e, (issue (.setlen n) s fun s => orStatus s k) = .next e ∧ e.outcome = 0x02#8 :=
  have hbad : (0x02#8 : Byte) ≠ 0x00#8 := by decide
  ⟨_, (issue_next (exec_setlen_too_long hp hn) _).trans (orStatus_bad hbad k), rfl⟩

/-- A length within the capacity is set, and the request goes on. -/
theorem issue_setlen_in {n : Word16} {s : State} (hp : s.present = true) (hn : n.toNat ≤ s.cap)
    (k : State → SeqResult) :
    (issue (.setlen n) s fun s => orStatus s k) = k { s with len := n, status := 0x00#8, out := some 0x00#32 } :=
  (issue_next (exec_setlen_in hp hn) _).trans (orStatus_ok rfl k)

/-- SETLEN, the test of its outcome, and the six header bytes of a request: node, function code, two words (R190). -/
def issueHeader (n : Word16) (node fn : Byte) (x y : Word16) (s : State) (k : State → SeqResult) : SeqResult :=
  issue (.setlen n) s fun s => orStatus s fun s =>
  issue (.putb 0#16 node) s fun s =>
  issue (.putb 1#16 fn) s fun s =>
  issue (.wrbe16 2#16 x) s fun s =>
  issue (.wrbe16 4#16 y) s k

theorem issueHeader_step {n : Word16} {s : State} (hp : s.present = true) (h6 : 6 ≤ n.toNat) (hn : n.toNat ≤ s.cap)
    (node fn : Byte) (x y : Word16) (k : State → SeqResult) :
    ∃ t, issueHeader n node fn x y s k = k t ∧ t.present = true ∧ t.len = n ∧ t.cfg = s.cfg ∧
      readBytes t 0 6 =
        [node, fn, x.extractLsb' 8 8, x.extractLsb' 0 8, y.extractLsb' 8 8, y.extractLsb' 0 8] := by
  have room {m : Nat} (hm : m ≤ 6) : m ≤ s.cap := hm.trans (h6.trans hn)
  set s0 : State := { s with len := n, status := 0x00#8, out := some 0x00#32 }
  set s1 := stored 0 [node] s0
  set s2 := stored 1 [fn] s1
  set s3 := stored 2 (be16Enc x) s2
  set s4 := stored 4 (be16Enc y) s3
  have e1 : exec (.putb 0#16 node) s0 = .next s1 := exec_putb_in (s := s0) hp (room (by decide)) node
  have e2 : exec (.putb 1#16 fn) s1 = .next s2 := exec_putb_in (s := s1) hp (room (by decide)) fn
  have e3 : exec (.wrbe16 2#16 x) s2 = .next s3 := exec_wrbe16_in (s := s2) hp (room (by decide)) x
  have e4 : exec (.wrbe16 4#16 y) s3 = .next s4 := exec_wrbe16_in (s := s3) hp (room (by decide)) y
  refine ⟨s4, ?_, hp, rfl, rfl, ?_⟩
  · rw [issueHeader, issue_setlen_in hp hn, issue_next e1, issue_next e2, issue_next e3, issue_next e4]
  · simp [readBytes, List.range_succ_eq_map, s4, s3, s2, s1, readByte_stored, be16Enc]

/-- A request of 8 bytes: the header and its checksum (R192, R193). -/
def issueFrame8 (node fn : Byte) (x y : Word16) (s : State) : SeqResult :=
  issueHeader 8#16 node fn x y s fun s => issue .crcapply s fun s => finish .ok {} s

/-- A read request of at most 80 words that has a message is a frame of 8 bytes (R192). -/
theorem buildReadWords_eq (p : HostParams) (addr : Word16) {count : Word16} {s : State} (hp : s.present = true)
    (hcount : count.toNat ≤ 80) :
    buildReadWords p addr count s = issueFrame8 p.nodeId p.fnReadReq addr count { s with out := some 1#32 } :=
  (ifPresent_pos hp _).trans (if_neg hcount.not_gt)

/-- A write-word request that has a message is a frame of 8 bytes (R193). -/
theorem buildWriteWord_eq (p : HostParams) (addr value : Word16) {s : State} (hp : s.present = true) :
    buildWriteWord p addr value s = issueFrame8 p.nodeId fnWriteWord addr value { s with out := some 1#32 } :=
  ifPresent_pos hp _

theorem issueFrame8_end {s : State} (hp : s.present = true) (hc : 8 ≤ s.cap) (node fn : Byte) (x y : Word16) :
    ∃ t, issueFrame8 node fn x y s = .next ⟨0x00#8, {}, t⟩ ∧ t.present = true ∧ t.len = 8#16 ∧ t.cfg = s.cfg ∧
      Verifies t ∧ readBytes t 0 6 =
        [node, fn, x.extractLsb' 8 8, x.extractLsb' 0 8, y.extractLsb' 8 8, y.extractLsb' 0 8] := by
  obtain ⟨u, eu, pu, lu, cu, bu⟩ := issueHeader_step (n := 8#16) hp (by decide) hc node fn x y
    fun s => issue .crcapply s fun s => finish .ok {} s
  have hlen : u.len.toNat = 8 := by rw [lu]; rfl
  have hcap : u.cap = s.cap := cap_eq_of_cfg cu
  obtain ⟨t, et, pt, lt, ct, hverifies, bt⟩ := issue_crcapply_step pu (by omega) (by omega) fun s => finish .ok {} s
  refine ⟨t, eu.trans et, pt, lt.trans lu, ct.trans cu, hverifies, ?_⟩
  rw [← bu]
  exact readBytes_congr fun a _ ha => bt a (by omega)

/-! ### A response -/

/-- The `n` bytes from 0 are a frame with its own checksum: the last two are the register after the others, low byte
first (R126, R128). -/
def VerifiesAt (s : State) (n : Nat) : Prop :=
  readByte s (n - 2) = (crc16 (readBytes s 0 (n - 2))).extractLsb' 0 8 ∧
    readByte s (n - 1) = (crc16 (readBytes s 0 (n - 2))).extractLsb' 8 8

/-- A message verifies when its bytes do over its length. -/
theorem verifies_iff_verifiesAt {s t : State} {n : Nat} (hlen : t.len.toNat = n)
    (hbytes : ∀ a, readByte t a = readByte s a) : Verifies t ↔ VerifiesAt s n := by
  rw [Verifies, VerifiesAt, coveredRegion, hlen, readBytes_congr fun a _ _ => hbytes a, hbytes, hbytes]

/-- The length and checksum tests of a parser: shrink to `n`, then verify (R197 to R199). -/
def shrinkAndVerify (n : Word16) (s : State) (k : State → SeqResult) : SeqResult :=
  issue (.shrink n) s fun s => orCode .tooShort {} s fun s =>
  issue .crccheck s fun s => orCode .badBuf {} s k

/-- Fewer than `n` bytes end the parser with MessageTooShort. -/
theorem shrinkAndVerify_too_short {n : Word16} {s : State} (hp : s.present = true) (hn : s.len.toNat < n.toNat)
    (k : State → SeqResult) : ∃ t, shrinkAndVerify n s k = finish .tooShort {} t :=
  have hbad : (0x06#8 : Byte) ≠ 0x00#8 := by decide
  ⟨_, (issue_next (exec_shrink_too_short hp hn) _).trans (orCode_bad hbad _)⟩

/-- With `n` bytes or more the message is shrunk to `n`; then a checksum that verifies goes on, and another ends the
parser with BadBuffer. -/
theorem shrinkAndVerify_step {n : Word16} {s : State} (hp : s.present = true) (h2 : 2 ≤ n.toNat)
    (hn : n.toNat ≤ s.len.toNat) (hc : s.len.toNat ≤ s.cap) (k : State → SeqResult) :
    ∃ t, t.present = true ∧ t.len = n ∧ t.cfg = s.cfg ∧ (∀ a, readByte t a = readByte s a) ∧
      (VerifiesAt s n.toNat → shrinkAndVerify n s k = k t) ∧
      (¬ VerifiesAt s n.toNat → shrinkAndVerify n s k = finish .badBuf {} t) := by
  set s1 : State := { s with len := n, status := 0x00#8, out := some 0x00#32 }
  obtain ⟨c, hexec, hgood, hbad⟩ := exec_crccheck_in (s := s1) hp h2 (hn.trans hc)
  have hiff : Verifies s1 ↔ VerifiesAt s n.toNat := verifies_iff_verifiesAt rfl fun _ => rfl
  set s2 : State := { s1 with crcr := crc16 (coveredRegion s1), status := c, out := none }
  have hprefix : shrinkAndVerify n s k = orCode .badBuf {} s2 k :=
    (issue_next (exec_shrink_in hp hn) _).trans ((orCode_ok rfl _).trans (issue_next hexec _))
  refine ⟨{ s2 with out := some (c.setWidth 32) }, hp, rfl, rfl, fun _ => rfl, fun hv => ?_, fun hv => ?_⟩
  · exact hprefix.trans (orCode_ok (s := s2) (hgood (hiff.2 hv)) k)
  · have hstatus : s2.status ≠ 0x00#8 := by rw [show s2.status = 0x04#8 from hbad (mt hiff.1 hv)]; decide
    exact hprefix.trans (orCode_bad hstatus k)

end Sys2Proof.Machine
end

section
/-! The request builders and DECODE_FUNCTION (45_host_sequences.md R192 to R196): each sequence is the steps of the
layer before it, with its tests decided one way per case. -/

namespace Sys2Proof.Machine

/-! ### Request builders -/

/-- Settles O49: the header and its checksum, when the message exists, the count is at most 80 and the capacity at
least 8. -/
theorem buildReadWordsMakesTheFrame : Obligations.BuildReadWordsMakesTheFrame := by
  intro p addr count s
  refine ⟨fun hp => ?absent, fun hp hcount => ?tooMany, fun hp hcount hc => ?tooLong, fun hp hcount hc => ?frame⟩
  case absent => exact ⟨_, ifPresent_neg hp _, rfl⟩
  case tooMany => exact ⟨_, (ifPresent_pos hp _).trans (if_pos hcount), rfl, rfl⟩
  case tooLong =>
    rw [buildReadWords_eq p addr hp hcount]
    exact issue_setlen_too_long (n := 8#16) (s := { s with out := some 1#32 }) hp hc _
  case frame =>
    obtain ⟨t, hend, -, hlen, -, ⟨hlow, hhigh⟩, hheader⟩ :=
      issueFrame8_end (s := { s with out := some 1#32 }) hp hc p.nodeId p.fnReadReq addr count
    rw [coveredRegion, hlen] at hlow hhigh
    refine ⟨_, _, (buildReadWords_eq p addr hp hcount).trans hend, rfl, hlen, rfl, ?_⟩
    calc readBytes t 0 8
      _ = readBytes t 0 6 ++ [readByte t 6, readByte t 7] := rfl
      _ = _ := by
        rw [hheader, show readByte t 6 = _ from hlow, show readByte t 7 = _ from hhigh,
          show (8#16).toNat - 2 = 6 from rfl, hheader]
        rfl

/-- The tail of a multi-word request: the byte count, the values and the checksum (R194). -/
def issueValues (byteCount : Byte) (vs : List Word16) (s : State) : SeqResult :=
  issue (.putb 6#16 byteCount) s fun s => writeValues vs 7 s fun s => issue .crcapply s fun s => finish .ok {} s

/-- A multi-word request of at most 80 words that has a message and values is a header and its tail (R194). -/
theorem buildWriteWords_eq (p : HostParams) (addr : Word16) {count : Word16} (vs : List Word16) {s : State}
    (hp : s.present = true) (hcount : count.toNat ≤ 80) :
    buildWriteWords p addr count (some vs) s =
      issueHeader (BitVec.ofNat 16 (9 + 2 * count.toNat)) p.nodeId fnWriteWords addr count
        { s with out := some 1#32 } (issueValues (BitVec.ofNat 8 (2 * count.toNat)) (vs.take count.toNat)) :=
  (ifPresent_pos hp _).trans (if_neg hcount.not_gt)

/-- The tail of a multi-word request fills the message from offset 6, and its checksum leaves all but the last two
bytes. -/
theorem issueValues_end {vs : List Word16} {s : State} (hp : s.present = true) (hl : s.len.toNat = 9 + 2 * vs.length)
    (hc : s.len.toNat ≤ s.cap) (byteCount : Byte) :
    ∃ t, issueValues byteCount vs s = .next ⟨0x00#8, {}, t⟩ ∧ t.present = true ∧ t.len = s.len ∧ t.cfg = s.cfg ∧
      Verifies t ∧ readBytes t 0 7 = readBytes s 0 6 ++ [byteCount] ∧
      ∀ i v, vs[i]? = some v →
        readByte t (7 + 2 * i) = v.extractLsb' 8 8 ∧ readByte t (8 + 2 * i) = v.extractLsb' 0 8 := by
  have hexec : exec (.putb 6#16 byteCount) s = .next (stored 6 [byteCount] s) :=
    exec_putb_in (off := 6#16) hp (show 6 + 1 ≤ s.cap by omega) byteCount
  obtain ⟨u, eu, pu, lu, cu, bu, vu⟩ := writeValues_step vs 7 (stored 6 [byteCount] s) hp
    (show 7 + 2 * vs.length ≤ s.cap by omega) fun s => issue .crcapply s fun s => finish .ok {} s
  have hlu : u.len = s.len := lu
  have hcu : u.cap = s.cap := cap_eq_of_cfg cu
  obtain ⟨t, et, pt, lt, ct, hverifies, bt⟩ := issue_crcapply_step pu (hlu ▸ by omega) (by rw [hlu, hcu]; exact hc)
    fun s => finish .ok {} s
  have hkeep (a : Nat) (ha : a < 7 + 2 * vs.length) : readByte t a = readByte u a := bt a (by rw [hlu]; omega)
  have hprefix (a : Nat) (ha : a < 7) : readByte t a = readByte (stored 6 [byteCount] s) a :=
    (hkeep a (by omega)).trans (bu a (.inl ha))
  refine ⟨t, ?_, pt, lt.trans hlu, ct.trans cu, hverifies, ?_, fun i v hv => ?_⟩
  · rw [issueValues, issue_next hexec, eu, et]
    rfl
  · calc readBytes t 0 7
      _ = readBytes (stored 6 [byteCount] s) 0 6 ++ [readByte (stored 6 [byteCount] s) 6] :=
        readBytes_congr fun a _ ha => hprefix a (by omega)
      _ = readBytes s 0 6 ++ [byteCount] := by
        rw [readBytes_congr fun a _ ha => readByte_stored_outside s (.inl (by omega)),
          show readByte (stored 6 [byteCount] s) 6 = byteCount from
            readByte_stored_inside 6 s (bs := [byteCount]) Nat.one_pos]
  · obtain ⟨hhigh, hlow⟩ := vu i v hv
    have hi : i < vs.length := (List.getElem?_eq_some_iff.1 hv).1
    rw [hkeep _ (by omega), hkeep _ (by omega), show 8 + 2 * i = 7 + 2 * i + 1 by omega]
    exact ⟨hhigh, hlow⟩

/-- Settles O51: the header, the byte count and the values are in the covered region of the frame, so CRCAPPLY leaves
them and CHECK_CHECKSUM then succeeds. -/
theorem buildWriteWordsMakesTheFrame : Obligations.BuildWriteWordsMakesTheFrame := by
  intro p addr count s
  refine ⟨fun hp vs => ⟨_, ifPresent_neg hp _, rfl⟩, fun hp => ⟨_, ifPresent_pos hp _, rfl, rfl⟩, fun vs hp hvs =>
    ⟨fun hcount => ⟨_, (ifPresent_pos hp _).trans (if_pos hcount), rfl, rfl⟩, fun hcount hc => ?tooLong,
      fun hcount hc => ?frame⟩⟩
  all_goals
    set s0 : State := { s with out := some 1#32 }
    set n : Word16 := BitVec.ofNat 16 (9 + 2 * count.toNat)
    have hn : n.toNat = 9 + 2 * count.toNat := toNat_ofNat_offset (by omega)
    rw [buildWriteWords_eq p addr vs hp hcount]
  case tooLong => exact issue_setlen_too_long (n := n) (s := s0) hp (hn ▸ hc) _
  case frame =>
    have htake : (vs.take count.toNat).length = count.toNat := List.length_take_of_le hvs
    obtain ⟨u, eu, pu, lu, cu, bu⟩ := issueHeader_step (n := n) (s := s0) hp (by omega) (hn ▸ hc) p.nodeId fnWriteWords
      addr count (issueValues (BitVec.ofNat 8 (2 * count.toNat)) (vs.take count.toNat))
    have hulen : u.len.toNat = 9 + 2 * count.toNat := by rw [lu, hn]
    have hucap : u.cap = s.cap := cap_eq_of_cfg cu
    obtain ⟨t, et, pt, lt, ct, hverifies, bt, vt⟩ := issueValues_end (vs := vs.take count.toNat) pu
      (by rw [htake, hulen]) (by omega) (BitVec.ofNat 8 (2 * count.toNat))
    have htcap : t.cap = s.cap := (cap_eq_of_cfg ct).trans hucap
    obtain ⟨c, hcheck, hok⟩ := checkChecksum_of_verifies pt (by rw [lt]; omega) (by rw [lt]; omega) hverifies
    refine ⟨_, c, eu.trans et, rfl, by rw [← hulen, ← lt], by rw [bt, bu]; rfl, fun i v hi hv => ?_, hcheck, hok⟩
    exact vt i v ((List.getElem?_take_of_lt hi).trans hv)

/-! ### DECODE_FUNCTION -/

theorem sameMessage_out (s : State) (v : Option Word32) : SameMessage s { s with out := v } :=
  ⟨rfl, rfl, rfl, fun _ => rfl⟩

/-- What DECODE_FUNCTION makes of the device code `dc` of an error report with the function code `fn` (R196). -/
def deviceReport (fn dc : Byte) (s : State) : SeqResult :=
  if dc.getLsbD 7 then finish .msgErr { fn := some fn } s else finish (.device (dc.setWidth 7)) { fn := some fn } s

/-- What DECODE_FUNCTION makes of the function byte (R196). -/
def functionOf (fb : Byte) (s : State) : SeqResult :=
  if fb.getLsbD 7 then
    ifLenAtLeast 3 { fn := some (fb &&& 0x7F#8) } s fun s => fetchByte 2#16 s (deviceReport (fb &&& 0x7F#8))
  else finish .ok { fn := some fb } s

theorem decodeFunction_absent {s : State} (hp : s.present = false) :
    ∃ t, decodeFunction s = .next ⟨0x01#8, {}, t⟩ := ⟨_, ifPresent_neg hp _⟩

theorem decodeFunction_too_short {s : State} (hp : s.present = true) (hl : s.len.toNat < 2) :
    ∃ t, decodeFunction s = .next ⟨0x06#8, {}, t⟩ :=
  ⟨_, (ifPresent_pos hp _).trans (ifLen_lt (s := { s with out := some 1#32 }) hl _)⟩

/-- A message of at least two bytes within the capacity has a function byte. -/
theorem decodeFunction_step {s : State} (hp : s.present = true) (hl : 2 ≤ s.len.toNat) (hc : s.len.toNat ≤ s.cap) :
    ∃ t, decodeFunction s = functionOf (readByte s 1) t ∧ SameMessage s t := by
  set s1 : State := { s with out := some 1#32 }
  set s2 : State := { s1 with out := some (s.len.setWidth 32) }
  obtain ⟨t, hfetch, hsame⟩ := fetchByte_step (off := 1#16) (s := s2) hp (hl.trans hc) functionOf
  have hlen := ifLen_ge (o := {}) (s := s1) hl fun s => fetchByte 1#16 s functionOf
  exact ⟨t, (ifPresent_pos hp _).trans (hlen.trans hfetch), (sameMessage_out s _).trans hsame⟩

/-- A function byte with bit 7 clear is the function code. -/
theorem functionOf_normal {fb : Byte} (h : fb.getLsbD 7 = false) (s : State) :
    functionOf fb s = .next ⟨0x00#8, { fn := some fb }, s⟩ := if_neg (Bool.eq_false_iff.1 h)

/-- An error report without a device code is too short (R196, notes/assumptions 10). -/
theorem functionOf_error_too_short {fb : Byte} (h : fb.getLsbD 7 = true) {s : State} (hl : s.len.toNat < 3) :
    ∃ t, functionOf fb s = .next ⟨0x06#8, { fn := some (fb &&& 0x7F#8) }, t⟩ := ⟨_, (if_pos h).trans (ifLen_lt hl _)⟩

/-- A device code is `dc | 0x80` (R229). -/
theorem device_value {dc : Byte} (h : dc.getLsbD 7 = false) :
    (Code.device (dc.setWidth 7)).value = dc ||| 0x80#8 := by
  have hall : ∀ b : Byte, b.getLsbD 7 = false → (Code.device (b.setWidth 7)).value = b ||| 0x80#8 := by decide
  exact hall dc h

/-- The outcome of an error report is its device code, or a message error when that has bit 7 set (R196). -/
theorem deviceReport_end (fn dc : Byte) (s : State) :
    ∃ c, deviceReport fn dc s = .next ⟨c, { fn := some fn }, s⟩ ∧ (dc.getLsbD 7 = true → c = 0x05#8) ∧
      (dc.getLsbD 7 = false → c = dc ||| 0x80#8) := by
  cases h : dc.getLsbD 7 with
  | true => exact ⟨0x05#8, if_pos h, fun _ => rfl, nofun⟩
  | false => exact ⟨_, if_neg (Bool.eq_false_iff.1 h), nofun, fun _ => device_value h⟩

theorem functionOf_error {fb : Byte} (h : fb.getLsbD 7 = true) {s : State} (hp : s.present = true)
    (hl : 3 ≤ s.len.toNat) (hc : s.len.toNat ≤ s.cap) :
    ∃ c t, functionOf fb s = .next ⟨c, { fn := some (fb &&& 0x7F#8) }, t⟩ ∧
      ((readByte s 2).getLsbD 7 = true → c = 0x05#8) ∧
      ((readByte s 2).getLsbD 7 = false → c = readByte s 2 ||| 0x80#8) := by
  set s1 : State := { s with out := some (s.len.setWidth 32) }
  obtain ⟨t, hfetch, -⟩ := fetchByte_step (off := 2#16) (s := s1) hp (hl.trans hc) (deviceReport (fb &&& 0x7F#8))
  obtain ⟨c, hreport, hmsgErr, hdevice⟩ := deviceReport_end (fb &&& 0x7F#8) (readByte s 2) t
  exact ⟨c, t, (if_pos h).trans ((ifLen_ge hl _).trans (hfetch.trans hreport)), hmsgErr, hdevice⟩

/-- Settles O52: the presence and length tests, then the cases of the function byte. -/
theorem decodeFunctionReportsTheDevice : Obligations.DecodeFunctionReportsTheDevice := by
  intro s
  refine ⟨fun hp => ?absent, fun hp hl => ?tooShort, fun hp hc hl hbit => ?normal, fun hp hc hl hbit => ?noDeviceCode,
    fun hp hc hl hbit => ?deviceCode⟩
  case absent => exact (decodeFunction_absent hp).elim fun t hend => ⟨_, hend, rfl, rfl⟩
  case tooShort => exact (decodeFunction_too_short hp hl).elim fun t hend => ⟨_, hend, rfl, rfl⟩
  case normal =>
    obtain ⟨t, hstep, -⟩ := decodeFunction_step hp hl hc
    exact ⟨_, hstep.trans (functionOf_normal hbit t), rfl, rfl⟩
  case noDeviceCode =>
    obtain ⟨t, hstep, hsame⟩ := decodeFunction_step hp hl.ge hc
    obtain ⟨u, hend⟩ := functionOf_error_too_short hbit (s := t) (by rw [hsame.len]; omega)
    exact ⟨_, hstep.trans hend, rfl, rfl⟩
  case deviceCode =>
    obtain ⟨t, hstep, hsame⟩ := decodeFunction_step hp (by omega) hc
    obtain ⟨c, u, hend, hmsgErr, hdevice⟩ := functionOf_error hbit (s := t) (hsame.present.trans hp)
      (by rw [hsame.len]; exact hl) (by rw [hsame.len, hsame.cap]; exact hc)
    rw [hsame.byte] at hmsgErr hdevice
    exact ⟨_, hstep.trans hend, rfl, hmsgErr, hdevice⟩

/-- A device error report does not decode to a function code (R196, R197). -/
theorem decodeFunction_error {s : State} (hp : s.present = true) (hl : 2 ≤ s.len.toNat) (hc : s.len.toNat ≤ s.cap)
    (hbit : (readByte s 1).getLsbD 7 = true) : ∃ d, decodeFunction s = .next d ∧ d.outcome ≠ 0x00#8 := by
  obtain ⟨-, -, -, hnoCode, hcode⟩ := decodeFunctionReportsTheDevice s
  rcases hl.eq_or_lt with h2 | h3
  · obtain ⟨d, hend, hout, -⟩ := hnoCode hp hc h2.symm hbit
    exact ⟨d, hend, by rw [hout]; decide⟩
  · obtain ⟨d, hend, -, hmsgErr, hdevice⟩ := hcode hp hc h3 hbit
    have hne : ∀ dc : Byte, dc ||| 0x80#8 ≠ 0x00#8 := by decide
    cases hdc : (readByte s 2).getLsbD 7 with
    | true => exact ⟨d, hend, by rw [hmsgErr hdc]; decide⟩
    | false => exact ⟨d, hend, by rw [hdevice hdc]; exact hne _⟩

end Sys2Proof.Machine
end

section
/-! The response parsers and the transport (45_host_sequences.md R197, R198, R203, 44_buffer_control.md R178), over the
function decode and the length and checksum tests. -/

namespace Sys2Proof.Machine

/-! ### The function code of a response -/

/-- A response whose function byte has bit 7 clear goes on with it (R197). -/
theorem withFunction_step {s : State} (hp : s.present = true) (hl : 2 ≤ s.len.toNat) (hc : s.len.toNat ≤ s.cap)
    (hbit : (readByte s 1).getLsbD 7 = false) (k : Byte → State → SeqResult) :
    ∃ t, withFunction s k = k (readByte s 1) t ∧ SameMessage s t := by
  obtain ⟨t, hstep, hsame⟩ := decodeFunction_step hp hl hc
  exact ⟨t, withFunction_ok (hstep.trans (functionOf_normal hbit t)) rfl rfl k, hsame⟩

/-! ### The echo of a write request -/

/-- Reading the two echoed words (R198, R199). -/
def readEcho (k : Word16 → Word16 → State → SeqResult) (s : State) : SeqResult :=
  fetchWord16 2#16 s fun a s => fetchWord16 4#16 s fun v s => k a v s

/-- What the parser of an echo does with the function code (R198, R199). -/
def echoFunction (code : Byte) (k : Word16 → Word16 → State → SeqResult) (fn : Byte) (s : State) : SeqResult :=
  if fn ≠ code then finish .badBuf {} s else shrinkAndVerify 8#16 s (readEcho k)

theorem parseEcho_eq (code : Byte) (s : State) (k : Word16 → Word16 → State → SeqResult) :
    parseEcho code s k = withFunction s (echoFunction code k) := rfl

/-- A frame of 8 bytes that verifies and has the function code asked for gives the words at 2 and at 4. -/
theorem parseEcho_step {code : Byte} {s : State} (hp : s.present = true) (hl : s.len = 8#16) (hc : 8 ≤ s.cap)
    (hcode : readByte s 1 = code) (hbit : code.getLsbD 7 = false) (hverifies : Verifies s)
    (k : Word16 → Word16 → State → SeqResult) :
    ∃ t, parseEcho code s k =
      k (be16Dec (readByte s 2) (readByte s 3)) (be16Dec (readByte s 4) (readByte s 5)) t := by
  have hlen : s.len.toNat = 8 := by rw [hl]; rfl
  obtain ⟨t1, e1, m1⟩ := withFunction_step hp (by omega) (by omega) (hcode ▸ hbit) (echoFunction code k)
  have hlen1 : t1.len.toNat = 8 := by rw [m1.len, hlen]
  obtain ⟨t2, p2, -, c2, b2, hgood, -⟩ := shrinkAndVerify_step (n := 8#16) (m1.present.trans hp) (by decide)
    hlen1.ge (by rw [hlen1, m1.cap]; exact hc) (readEcho k)
  have hverifies1 : VerifiesAt t1 8 :=
    (verifies_iff_verifiesAt hlen fun a => (m1.byte a).symm).1 hverifies
  have hcap2 : 8 ≤ t2.cap := by rw [cap_eq_of_cfg c2, m1.cap]; exact hc
  obtain ⟨t3, e3, m3⟩ := fetchWord16_step (off := 2#16) p2 (le_trans (by decide) hcap2) fun a s =>
    fetchWord16 4#16 s fun v s => k a v s
  obtain ⟨t4, e4, m4⟩ := fetchWord16_step (off := 4#16) (m3.present.trans p2)
    (le_trans (by decide) (hcap2.trans_eq m3.cap.symm)) (k (be16Dec (readByte t2 2) (readByte t2 3)))
  have hbyte (a : Nat) : readByte t2 a = readByte s a := (b2 a).trans (m1.byte a)
  refine ⟨t4, ?_⟩
  calc parseEcho code s k
    _ = echoFunction code k (readByte s 1) t1 := (parseEcho_eq code s k).trans e1
    _ = shrinkAndVerify 8#16 t1 (readEcho k) := if_neg (not_not.2 hcode)
    _ = readEcho k t2 := hgood hverifies1
    _ = k (be16Dec (readByte t2 2) (readByte t2 3)) (be16Dec (readByte t3 4) (readByte t3 5)) t4 := e3.trans e4
    _ = _ := by rw [m3.byte, m3.byte, hbyte, hbyte, hbyte, hbyte]

/-- Settles O50: the frame that is built verifies and holds the function code, the address and the value. -/
theorem writeWordRequestParsesAsItsEcho : Obligations.WriteWordRequestParsesAsItsEcho := by
  intro p addr value s hp hc
  obtain ⟨t, hend, pt, lt, ct, hverifies, hheader⟩ :=
    issueFrame8_end (s := { s with out := some 1#32 }) hp hc p.nodeId fnWriteWord addr value
  have hbyte {k : Nat} {b : Byte} (hk : k < 6) (hb : [p.nodeId, fnWriteWord, addr.extractLsb' 8 8,
      addr.extractLsb' 0 8, value.extractLsb' 8 8, value.extractLsb' 0 8][k]? = some b) : readByte t k = b := by
    rw [← hheader, readBytes_getElem? t 0 6 k hk, Nat.zero_add] at hb
    exact Option.some_inj.1 hb
  obtain ⟨u, hparse⟩ := parseEcho_step (code := fnWriteWord) pt lt ((cap_eq_of_cfg ct).symm ▸ hc)
    (hbyte (by decide) rfl) (by decide) hverifies fun a v s => finish .ok { address := some a, value := some v } s
  rw [hbyte (k := 2) (by decide) rfl, hbyte (k := 3) (by decide) rfl, hbyte (k := 4) (by decide) rfl,
    hbyte (k := 5) (by decide) rfl, be16Dec_halves, be16Dec_halves] at hparse
  exact ⟨_, _, (buildWriteWord_eq p addr value hp).trans hend, rfl, hparse, rfl, rfl, rfl⟩

/-! ### The words of a read response -/

/-- How PARSE_READ_WORDS ends with the words it has read of a response of `bc` data bytes (R200). -/
def readEnd (requested bc : Nat) (vs : List Word16) (s : State) : SeqResult :=
  if bc / 2 > requested then finish .dataTooLong { actualCount := some (bc / 2), values := vs } s
  else finish .ok { actualCount := some (bc / 2), values := vs } s

/-- What PARSE_READ_WORDS does with a verified response of `bc` data bytes (R197, R200). -/
def readWords (requested : Nat) (bc : Byte) (s : State) : SeqResult :=
  if bc.toNat % 2 = 1 then finish .badBuf {} s else
  readValues (min requested (bc.toNat / 2)) 3 s (readEnd requested bc.toNat)

/-- What PARSE_READ_WORDS does with the byte count (R197). -/
def readResponse (requested : Nat) (bc : Byte) (s : State) : SeqResult :=
  shrinkAndVerify (BitVec.ofNat 16 (bc.toNat + 5)) s (readWords requested bc)

/-- What PARSE_READ_WORDS does with the function code (R197). -/
def readFunction (requested : Nat) (fn : Byte) (s : State) : SeqResult :=
  if !isReadCode fn then finish .badBuf {} s else ifLenAtLeast 3 {} s fun s => fetchByte 2#16 s (readResponse requested)

theorem parseReadWords_eq (requested : Nat) (s : State) :
    parseReadWords requested s = withFunction s (readFunction requested) := rfl

theorem isReadCode_iff (fn : Byte) : isReadCode fn = true ↔ fn = 0x03#8 ∨ fn = 0x04#8 := by simp [isReadCode]

theorem getLsbD_seven_of_isReadCode {fn : Byte} (h : isReadCode fn = true) : fn.getLsbD 7 = false := by
  rcases (isReadCode_iff fn).1 h with rfl | rfl <;> rfl

/-- A response of at least three bytes with a read code goes on with its byte count. -/
theorem parseReadWords_step (requested : Nat) {s : State} (hp : s.present = true) (hl : 3 ≤ s.len.toNat)
    (hc : s.len.toNat ≤ s.cap) (hcode : isReadCode (readByte s 1) = true) :
    ∃ t, parseReadWords requested s = readResponse requested (readByte s 2) t ∧ SameMessage s t := by
  obtain ⟨t1, e1, m1⟩ := withFunction_step hp (Nat.le_of_succ_le hl) hc (getLsbD_seven_of_isReadCode hcode)
    (readFunction requested)
  set t2 : State := { t1 with out := some (t1.len.setWidth 32) }
  have hlen1 : 3 ≤ t1.len.toNat := m1.len.symm ▸ hl
  obtain ⟨t3, e3, m3⟩ := fetchByte_step (off := 2#16) (s := t2) (m1.present.trans hp)
    ((hl.trans hc).trans_eq m1.cap.symm) (readResponse requested)
  have hbyte : readByte t2 2 = readByte s 2 := m1.byte 2
  have hfunction : readFunction requested (readByte s 1) t1 = readResponse requested (readByte t2 2) t3 :=
    (if_neg (by simp [hcode])).trans ((ifLen_ge hlen1 _).trans e3)
  have hsame : SameMessage s t3 := m1.trans ((sameMessage_out t1 _).trans m3)
  exact ⟨t3, (parseReadWords_eq requested s).trans (e1.trans (hbyte ▸ hfunction)), hsame⟩

theorem verifiesAt_congr {s t : State} (hbytes : ∀ a, readByte t a = readByte s a) (n : Nat) :
    VerifiesAt t n ↔ VerifiesAt s n := by
  rw [VerifiesAt, VerifiesAt, readBytes_congr fun a _ _ => hbytes a, hbytes, hbytes]

/-- A response of at least `bc + 5` bytes is shrunk to these, and read when they verify; else it ends with BadBuffer. -/
theorem parseReadWords_verified (requested : Nat) {s : State} (hp : s.present = true) (hc : s.len.toNat ≤ s.cap)
    (hcode : isReadCode (readByte s 1) = true) (hl : (readByte s 2).toNat + 5 ≤ s.len.toNat) :
    ∃ t, t.present = true ∧ t.len.toNat = (readByte s 2).toNat + 5 ∧ t.cfg = s.cfg ∧
      (∀ a, readByte t a = readByte s a) ∧
      (VerifiesAt s ((readByte s 2).toNat + 5) → parseReadWords requested s = readWords requested (readByte s 2) t) ∧
      (¬ VerifiesAt s ((readByte s 2).toNat + 5) → parseReadWords requested s = finish .badBuf {} t) := by
  set bc := readByte s 2
  have hn : (BitVec.ofNat 16 (bc.toNat + 5)).toNat = bc.toNat + 5 := toNat_ofNat_offset (by have := bc.isLt; omega)
  obtain ⟨t, hstep, hsame⟩ := parseReadWords_step requested hp (by omega) hc hcode
  obtain ⟨u, pu, lu, cu, bu, hgood, hbad⟩ := shrinkAndVerify_step (hsame.present.trans hp) (by rw [hn]; omega)
    (by rw [hn, hsame.len]; exact hl) (by rw [hsame.len, hsame.cap]; exact hc) (readWords requested bc)
  rw [hn, verifiesAt_congr hsame.byte] at hgood hbad
  exact ⟨u, pu, by rw [lu, hn], cu.trans hsame.cfg, fun a => (bu a).trans (hsame.byte a),
    fun hv => hstep.trans (hgood hv), fun hv => hstep.trans (hbad hv)⟩

theorem readWords_odd (requested : Nat) {bc : Byte} (h : bc.toNat % 2 = 1) (s : State) :
    readWords requested bc s = .next ⟨0x04#8, {}, s⟩ := if_pos h

/-- The outputs of a verified read response: its word count, and the words at 3, 5, ..., as many as were requested at
most (R197). -/
def readOutputs (requested bc : Nat) (s : State) : Outputs where
  actualCount := some (bc / 2)
  values := (List.range (min requested (bc / 2))).map fun i =>
    be16Dec (readByte s (3 + 2 * i)) (readByte s (4 + 2 * i))

theorem readOutputs_congr {s t : State} (hbytes : ∀ a, readByte t a = readByte s a) (requested bc : Nat) :
    readOutputs requested bc t = readOutputs requested bc s := by
  simp only [readOutputs, hbytes]

/-- An even byte count: the words, and an outcome that says whether they are all. -/
theorem readWords_even (requested : Nat) {bc : Byte} (h : bc.toNat % 2 = 0) {s : State} (hp : s.present = true)
    (hr : 3 + bc.toNat ≤ s.cap) :
    ∃ c t, readWords requested bc s = .next ⟨c, readOutputs requested bc.toNat s, t⟩ ∧ SameMessage s t ∧
      (bc.toNat / 2 ≤ requested → c = 0x00#8) ∧ (requested < bc.toNat / 2 → c = 0x03#8) := by
  obtain ⟨t, hread, hsame⟩ := readValues_step (min requested (bc.toNat / 2)) 3 s hp (by omega)
    (readEnd requested bc.toNat)
  have hoff : ∀ i, 3 + 2 * i + 1 = 4 + 2 * i := fun i => by omega
  simp only [hoff] at hread
  have heven : ¬ bc.toNat % 2 = 1 := by omega
  have hprefix : readWords requested bc s = _ := (if_neg heven).trans hread
  rcases Nat.lt_or_ge requested (bc.toNat / 2) with hmore | hmore
  · exact ⟨0x03#8, t, hprefix.trans (if_pos hmore), hsame, fun hle => absurd hmore hle.not_gt, fun _ => rfl⟩
  · exact ⟨0x00#8, t, hprefix.trans (if_neg hmore.not_gt), hsame, fun _ => rfl, fun hlt => absurd hlt hmore.not_gt⟩

/-- Settles O53: the verified response by the parity of its byte count. -/
theorem parseReadWordsReadsTheVerifiedWords : Obligations.ParseReadWordsReadsTheVerifiedWords := by
  rintro requested bc s hp hc rfl hl hcode hlow hhigh
  obtain ⟨t, pt, lt, ct, bt, hgood, -⟩ := parseReadWords_verified requested hp hc ((isReadCode_iff _).2 hcode) hl
  have hparse := hgood ⟨hlow, hhigh⟩
  rcases Nat.mod_two_eq_zero_or_one (readByte s 2).toNat with heven | hodd
  · obtain ⟨c, u, hread, hsame, hall, hmore⟩ := readWords_even requested heven pt
      (by rw [cap_eq_of_cfg ct]; omega)
    rw [readOutputs_congr bt] at hread
    exact ⟨_, hparse.trans hread, by rw [hsame.len, lt], fun hodd => by omega, fun _ => ⟨rfl, hall, hmore⟩⟩
  · exact ⟨_, hparse.trans (readWords_odd requested hodd t), lt, fun _ => ⟨rfl, rfl⟩, fun heven => by omega⟩

/-- Settles O54: the tests of the parser in their order, each failing in turn. -/
theorem parseReadWordsReportsWhatFails : Obligations.ParseReadWordsReportsWhatFails := by
  intro requested s
  refine ⟨fun hp => ?absent, fun hp hc => ⟨fun hl => ?noFunction, fun hl hbit => ?deviceError,
    fun hl hbit h03 h04 => ?otherFunction, fun hcode => ⟨fun hl => ?noByteCount, fun bc hbc hl => ?_⟩⟩⟩
  case absent =>
    obtain ⟨t, hend⟩ := decodeFunction_absent hp
    have hne : (0x01#8 : Byte) ≠ 0x00#8 := by decide
    exact ⟨_, withFunction_bad hend hne _, rfl, rfl⟩
  case noFunction =>
    obtain ⟨t, hend⟩ := decodeFunction_too_short hp hl
    have hne : (0x06#8 : Byte) ≠ 0x00#8 := by decide
    exact ⟨_, withFunction_bad hend hne _, rfl, rfl⟩
  case deviceError =>
    obtain ⟨d, hend, hne⟩ := decodeFunction_error hp hl hc hbit
    exact ⟨_, d, hend, withFunction_bad hend hne _, rfl, hne, rfl⟩
  case otherFunction =>
    obtain ⟨t, hstep, -⟩ := withFunction_step hp hl hc hbit (readFunction requested)
    have hnot : (!isReadCode (readByte s 1)) = true := by simp [isReadCode, h03, h04]
    exact ⟨_, hstep.trans (if_pos hnot), rfl, rfl⟩
  all_goals have hread := (isReadCode_iff _).2 hcode
  case noByteCount =>
    obtain ⟨t, hstep, hsame⟩ := withFunction_step hp hl.ge hc (getLsbD_seven_of_isReadCode hread)
      (readFunction requested)
    have hlen : t.len.toNat < 3 := by rw [hsame.len, hl]; decide
    exact ⟨_, hstep.trans ((if_neg (by simp [hread])).trans (ifLen_lt hlen _)), rfl, rfl⟩
  subst hbc
  refine ⟨fun hshort => ?tooShort, fun hlong hv => ?badChecksum, fun hlong hlow hhigh hodd => ?oddByteCount⟩
  case tooShort =>
    obtain ⟨t, hstep, hsame⟩ := parseReadWords_step requested hp hl hc hread
    have hn : (BitVec.ofNat 16 ((readByte s 2).toNat + 5)).toNat = (readByte s 2).toNat + 5 :=
      toNat_ofNat_offset (by have := (readByte s 2).isLt; omega)
    obtain ⟨u, hend⟩ := shrinkAndVerify_too_short (hsame.present.trans hp) (by rw [hn, hsame.len]; exact hshort)
      (readWords requested (readByte s 2))
    exact ⟨_, hstep.trans hend, rfl, rfl⟩
  all_goals obtain ⟨t, -, -, -, -, hgood, hbad⟩ := parseReadWords_verified requested hp hc hread hlong
  case badChecksum => exact ⟨_, hbad hv, rfl, rfl⟩
  case oddByteCount => exact ⟨_, (hgood ⟨hlow, hhigh⟩).trans (readWords_odd requested hodd t), rfl, rfl⟩

/-! ### The transport -/

/-- Settles O55: the bytes are put in order, and as many are read back. -/
theorem receivedBytesAreTransmittedBack : Obligations.ReceivedBytesAreTransmittedBack := by
  intro bytes s hp hlen
  have hcap := s.cap_le
  set n : Word16 := BitVec.ofNat 16 bytes.length
  have hn : n.toNat = bytes.length := toNat_ofNat_offset (by omega)
  obtain ⟨t, hput, pt, -, ct, hframe, hbytes⟩ := putBytes_step bytes 0 s hp (by omega) fun s =>
    issue (.setlen n) s fun s => fetchReg .status s fun st s => .next ⟨st.setWidth 8, {}, s⟩
  have htcap : t.cap = s.cap := cap_eq_of_cfg ct
  set u : State := { t with len := n, status := 0x00#8, out := some 0x00#32 }
  have hreceive : receive bytes s = .next ⟨0x00#8, {}, u⟩ :=
    hput.trans ((issue_next (exec_setlen_in pt (by omega)) _).trans (fetchReg_eq .status _ _))
  have hread : (List.range bytes.length).map (fun i => readByte u (0 + i)) = bytes := by
    refine List.ext_getElem (by simp) fun i hi hi' => ?_
    rw [List.getElem_map, List.getElem_range]
    exact hbytes i bytes[i] (List.getElem?_eq_getElem hi')
  have hlenReg : (readReg u .len).toNat = bytes.length := by
    rw [← hn]
    exact BitVec.toNat_setWidth_of_le (by decide)
  have hroom : 0 + bytes.length ≤ u.cap := by rw [Nat.zero_add]; exact hlen.trans_eq htcap.symm
  obtain ⟨v, hget, -⟩ := getBytes_step bytes.length 0 { u with out := some (readReg u .len) } pt hroom
    fun bs s => finish .ok { bytes := bs } s
  have htransmit : transmit u = .next ⟨0x00#8, { bytes := bytes }, v⟩ := by
    rw [transmit, fetchReg_eq, hlenReg, hget]
    exact congrArg (fun bs => finish .ok { bytes := bs } v) hread
  exact ⟨_, _, hreceive, rfl, hn, hread, fun a ha => hframe a (.inr (by omega)), htransmit, rfl⟩

end Sys2Proof.Machine
end
